-- ==== Sys2Proof/Word.lean ====
section
/-! DEFINITION. The machine's words: bytes of the image, 15-bit value words, 16-bit memory words. -/

namespace Sys2Proof

/-- A byte of the program image (20_memory.md R63). -/
abbrev Byte := BitVec 8

/-- The value word of the ISA, 15 bits, read unsigned (00_scope.md R8, R13, R21). -/
abbrev Word := BitVec 15

/-- A 16-bit word: a memory cell, an opcode word, a raw operand word, an address in the pc, a stack entry
(00_scope.md R12). -/
abbrev MemWord := BitVec 16

/-- `zext_16(v)` (00_scope.md R13). -/
def zext16 (v : Word) : MemWord := v.setWidth 16

end Sys2Proof
end

