-- ==== Sys2Proof/Syntax.lean ====
section
/-! DEFINITION. Operands and the 22 instructions (30_encoding.md R92 to R95). -/

namespace Sys2Proof

/-- The class of a raw operand word (30_encoding.md R92). No class is an error at decode: an operand is judged only
where an effect or an advance rule consumes it (R92, R98), so an invalid word keeps its value for the fault record. -/
inductive Operand where
  /-- words 0..32767: the value itself -/
  | lit (value : Word)
  /-- words 32768..32775: register 0..7 -/
  | reg (index : Fin 8)
  /-- words 32776..65535: neither -/
  | invalid (word : MemWord)
deriving DecidableEq, Repr

/-- One constructor per row of spec/opcode_table.json. The operand letters are the spec's (30_encoding.md R94).
The row `in` is `inp`, because `in` is a reserved word of Lean. -/
inductive Instr where
  | halt
  | set (a b : Operand)
  | push (a : Operand)
  | pop (a : Operand)
  | eq (a b c : Operand)
  | gt (a b c : Operand)
  | jmp (a : Operand)
  | jt (a b : Operand)
  | jf (a b : Operand)
  | add (a b c : Operand)
  | mult (a b c : Operand)
  | mod (a b c : Operand)
  | and (a b c : Operand)
  | or (a b c : Operand)
  | not (a b : Operand)
  | rmem (a b : Operand)
  | wmem (a b : Operand)
  | call (a : Operand)
  | ret
  | out (a : Operand)
  | inp (a : Operand)
  | noop
deriving DecidableEq, Repr

/-- The operands in word order a, b, c (30_encoding.md R93). -/
def Instr.operands : Instr → List Operand
  | .halt => []
  | .set a b => [a, b]
  | .push a => [a]
  | .pop a => [a]
  | .eq a b c => [a, b, c]
  | .gt a b c => [a, b, c]
  | .jmp a => [a]
  | .jt a b => [a, b]
  | .jf a b => [a, b]
  | .add a b c => [a, b, c]
  | .mult a b c => [a, b, c]
  | .mod a b c => [a, b, c]
  | .and a b c => [a, b, c]
  | .or a b c => [a, b, c]
  | .not a b => [a, b]
  | .rmem a b => [a, b]
  | .wmem a b => [a, b]
  | .call a => [a]
  | .ret => []
  | .out a => [a]
  | .inp a => [a]
  | .noop => []

/-- The arity n (00_scope.md R23). -/
def Instr.arity (i : Instr) : Nat := i.operands.length

/-- The length in words, 1 + n (30_encoding.md R90, R96). -/
def Instr.length (i : Instr) : Nat := 1 + i.arity

end Sys2Proof
end

