-- ==== Sys2Proof/WellFormed.lean ====
section
/-! DEFINITION. Which terms of Syntax stand for an encoded instruction. -/

namespace Sys2Proof

/-- An `invalid` operand holds a word that is neither a literal nor a register reference (30_encoding.md R92). -/
def Operand.wf : Operand → Bool
  | .lit _ => true
  | .reg _ => true
  | .invalid w => decide (32776 ≤ w.toNat)

/-- Every operand of the instruction is a class some word has. Roles are no matter of well-formedness: a literal in a
destination is an instruction, which faults when it runs (30_encoding.md R98). -/
def Instr.wf (i : Instr) : Bool := i.operands.all Operand.wf

end Sys2Proof
end

