-- ==== Sys2Proof/Decode.lean ====
section
/-! DEFINITION. From words and bytes to instructions and back (30_encoding.md R90 to R100; 40_sequencer.md R125). -/

namespace Sys2Proof

/-- Why no instruction is decoded. -/
inductive DecodeError where
  /-- there is no opcode word (40_sequencer.md R124) -/
  | noOpcodeWord
  /-- the opcode word is not in 0..21 (30_encoding.md R97) -/
  | unknownOpcode (op : MemWord)
  /-- fewer operand words than the opcode's arity (40_sequencer.md R125) -/
  | missingOperands (op : MemWord)
deriving DecidableEq, Repr

/-- The class of a raw operand word, by its value (30_encoding.md R92). -/
def Operand.ofWord (w : MemWord) : Operand :=
  if w.toNat ≤ 32767 then .lit (BitVec.ofNat 15 w.toNat)
  else if h : w.toNat - 32768 < 8 then .reg ⟨w.toNat - 32768, h⟩
  else .invalid w

/-- The raw operand word of a class (30_encoding.md R92). -/
def Operand.word : Operand → MemWord
  | .lit v => zext16 v
  | .reg i => BitVec.ofNat 16 (32768 + i.val)
  | .invalid w => w

/-- Format F1: one operand word (30_encoding.md R93). -/
def decodeF1 (op : MemWord) (mk : Operand → Instr) : List MemWord → Except DecodeError (Instr × List MemWord)
  | a :: rest => .ok (mk (.ofWord a), rest)
  | _ => .error (.missingOperands op)

/-- Format F2: two operand words (30_encoding.md R93). -/
def decodeF2 (op : MemWord) (mk : Operand → Operand → Instr) :
    List MemWord → Except DecodeError (Instr × List MemWord)
  | a :: b :: rest => .ok (mk (.ofWord a) (.ofWord b), rest)
  | _ => .error (.missingOperands op)

/-- Format F3: three operand words (30_encoding.md R93). -/
def decodeF3 (op : MemWord) (mk : Operand → Operand → Operand → Instr) :
    List MemWord → Except DecodeError (Instr × List MemWord)
  | a :: b :: c :: rest => .ok (mk (.ofWord a) (.ofWord b) (.ofWord c), rest)
  | _ => .error (.missingOperands op)

/-- The instruction the words begin with, and the words after it. The opcode word is compared whole (30_encoding.md R91,
R95) and checked against the catalog before its operands are taken (40_sequencer.md R125). -/
def decodeWords : List MemWord → Except DecodeError (Instr × List MemWord)
  | [] => .error .noOpcodeWord
  | op :: ws =>
    match op.toNat with
    | 0 => .ok (.halt, ws)
    | 1 => decodeF2 op .set ws
    | 2 => decodeF1 op .push ws
    | 3 => decodeF1 op .pop ws
    | 4 => decodeF3 op .eq ws
    | 5 => decodeF3 op .gt ws
    | 6 => decodeF1 op .jmp ws
    | 7 => decodeF2 op .jt ws
    | 8 => decodeF2 op .jf ws
    | 9 => decodeF3 op .add ws
    | 10 => decodeF3 op .mult ws
    | 11 => decodeF3 op .mod ws
    | 12 => decodeF3 op .and ws
    | 13 => decodeF3 op .or ws
    | 14 => decodeF2 op .not ws
    | 15 => decodeF2 op .rmem ws
    | 16 => decodeF2 op .wmem ws
    | 17 => decodeF1 op .call ws
    | 18 => .ok (.ret, ws)
    | 19 => decodeF1 op .out ws
    | 20 => decodeF1 op .inp ws
    | 21 => .ok (.noop, ws)
    | _ => .error (.unknownOpcode op)

/-- The opcode word of an instruction (30_encoding.md R95). -/
def opcodeWord : Instr → MemWord
  | .halt => 0
  | .set _ _ => 1
  | .push _ => 2
  | .pop _ => 3
  | .eq _ _ _ => 4
  | .gt _ _ _ => 5
  | .jmp _ => 6
  | .jt _ _ => 7
  | .jf _ _ => 8
  | .add _ _ _ => 9
  | .mult _ _ _ => 10
  | .mod _ _ _ => 11
  | .and _ _ _ => 12
  | .or _ _ _ => 13
  | .not _ _ => 14
  | .rmem _ _ => 15
  | .wmem _ _ => 16
  | .call _ => 17
  | .ret => 18
  | .out _ => 19
  | .inp _ => 20
  | .noop => 21

/-- The words `[opcode, a, b, c]` truncated to 1 + arity (30_encoding.md R93, R101). -/
def encode (i : Instr) : List MemWord := opcodeWord i :: i.operands.map Operand.word

/-- A little-endian 16-bit word of two image bytes (20_memory.md R63). -/
def wordOfBytes (lo hi : Byte) : MemWord := hi ++ lo

/-- The low byte of a word, the one an image gives first (20_memory.md R63). -/
def lowByte (w : MemWord) : Byte := w.setWidth 8

/-- The high byte of a word, the one an image gives second (20_memory.md R63). -/
def highByte (w : MemWord) : Byte := (w >>> 8).setWidth 8

/-- The words of a byte string, little-endian; a trailing odd byte belongs to no word (20_memory.md R63). -/
def wordsOfBytes : List Byte → List MemWord
  | lo :: hi :: rest => wordOfBytes lo hi :: wordsOfBytes rest
  | _ => []

/-- The bytes of words in the image's order (20_memory.md R63). -/
def bytesOfWords : List MemWord → List Byte
  | [] => []
  | w :: ws => lowByte w :: highByte w :: bytesOfWords ws

/-- The instruction a byte string begins with, and the bytes after it. -/
def decodeBytes (bs : List Byte) : Except DecodeError (Instr × List Byte) :=
  match decodeWords (wordsOfBytes bs) with
  | .ok (i, _) => .ok (i, bs.drop (2 * i.length))
  | .error e => .error e

/-- The bytes of an instruction in the image's order. -/
def encodeBytes (i : Instr) : List Byte := bytesOfWords (encode i)

/-- The four words of an instruction whose bits are `w`, bit 0 the least significant bit of the first word; the bits from
`nbits` up are 0 and the longest instruction has four words (30_encoding.md R93). -/
def tableWords (nbits w : Nat) : List MemWord :=
  let v := w % 2 ^ nbits
  [BitVec.ofNat 16 v, BitVec.ofNat 16 (v / 2 ^ 16), BitVec.ofNat 16 (v / 2 ^ 32), BitVec.ofNat 16 (v / 2 ^ 48)]

/-- The instruction the decoder reads from an instruction whose bits are `w`, laid out as image bytes. -/
def decodeTableWord (nbits w : Nat) : Option Instr :=
  match decodeBytes (bytesOfWords (tableWords nbits w)) with
  | .ok (i, _) => some i
  | .error _ => none

end Sys2Proof
end

