-- ==== Sys2Proof/Config.lean ====
section
/-! DEFINITION. What one hardware run fixes: the program image and the three parameters (10_state.md, head; 00_scope.md
R9 to R11). No free value stands here: the spec leaves no behaviour as `any value` (93_implementation_defined.md). -/

namespace Sys2Proof.Machine

/-- Memory as (byte address, byte) pairs. Cell a of the spec is the two bytes 2a (low) and 2a + 1 (high), the place
its bytes have in the program image (20_memory.md R63). DESIGN CHOICE (log 1), safe: after load no access can observe
the order of bytes in a cell (R66). -/
abbrev Memory := List Host.Cell

/-- The parameters of one instance and one run; no rule changes them. Held in State so that the model covers every
value of them. DESIGN CHOICE (log 6), safe. -/
structure Params where
  /-- the program image, which a reset loads again (70_reset_and_hazards.md R290) -/
  image : Memory
  /-- MEM_WORDS, 0..32768 (00_scope.md R9) -/
  memWords : Fin 32769
  /-- STACK_DEPTH, `none` for UNBOUNDED (00_scope.md R10) -/
  stackDepth : Option Nat
  /-- HOST_STOP (00_scope.md R11) -/
  hostStop : Bool
deriving DecidableEq, Repr

/-- STACK_DEPTH is UNBOUNDED by default (00_scope.md R10, 10_state.md R41). -/
def defaultStackDepth : Option Nat := none

/-- HOST_STOP is false by default (00_scope.md R11). -/
def defaultHostStop : Bool := false

end Sys2Proof.Machine
end

