-- ==== Sys2Proof/Machine/State.lean ====
section
/-! DEFINITION. The state of the CORE (10_state.md), the kinds of fault, the reasons a model function stops, and the
state after reset. -/

namespace Sys2Proof.Machine

/-- The run status (10_state.md R45); its 2-bit code is `Status.code`. -/
inductive Status where
  | running
  | halted
  | faulted
  | stopped
deriving DecidableEq, Repr

/-- The nine kinds of fault (60_exceptions.md R261); the 4-bit code is `FaultKind.code`. -/
inductive FaultKind where
  | invalidOperand
  | invalidRegister
  | invalidArguments
  | invalidMemoryAccess
  | stackUnderflow
  | unknownOpcode
  | divideByZero
  | wordOutOfRange
  | stackOverflow
deriving DecidableEq, Repr

/-- A fault raised and not yet entered: its kind and the offending word (00_scope.md R18, 60_exceptions.md R261). -/
structure Raise where
  kind : FaultKind
  info : MemWord
deriving DecidableEq, Repr

/-- The state: every piece of state of 10_state.md, the parameters, and the host's side of the ports. -/
structure State where
  /-- x[0..7], 15 bits each (10_state.md R30, R31) -/
  regs : Vector Word 8
  /-- the program counter, 16 bits (10_state.md R34) -/
  pc : MemWord
  /-- M (10_state.md R49), as the image's bytes (log 1) -/
  mem : Memory
  /-- S, 16-bit entries, the last element the top (10_state.md R39) -/
  stack : List MemWord
  /-- the run status (10_state.md R45) -/
  status : Status
  /-- fault_code (10_state.md R46) -/
  faultCode : BitVec 4
  /-- fault_pc (10_state.md R46) -/
  faultPc : MemWord
  /-- fault_info (10_state.md R46) -/
  faultInfo : MemWord
  /-- the output trace O (48_io.md R240) -/
  output : List Word
  /-- I: the characters offered and not yet taken, the first one next (48_io.md R245) -/
  input : List Word
  /-- the number of input characters consumed (60_exceptions.md R278) -/
  consumed : Nat
  /-- out_ready: the sink accepts (48_io.md R241) -/
  outReady : Bool
  /-- stop_req (40_sequencer.md R123) -/
  stopReq : Bool
  /-- the program image, MEM_WORDS, STACK_DEPTH, HOST_STOP (10_state.md, head) -/
  params : Params
deriving DecidableEq, Repr

/-- A Lean fault stops the run without a next state. There is none: every fault of the spec is a state the CORE enters
(60_exceptions.md R262, status FAULTED with its record), given as a next state, and a configuration without a step keeps
its state (log 3, log 4, log 5). -/
inductive Fault where
deriving DecidableEq, Repr

/-- A model function has no meaning to give. -/
inductive Refusal where
  /-- Raised by an arm of `exec` whose instruction has no meaning yet. Safe: the run stops. No arm raises it. -/
  | notModelled (mnemonic : String)
  /-- Raised by `loadImage` on an image of odd byte length, which the load contract refuses (20_memory.md R64). Safe. -/
  | imageOddLength
  /-- Raised by `loadImage` on an image of more than 32768 words (20_memory.md R65). Safe. -/
  | imageTooLong
  /-- Raised by `deliver` on a character code above 32767, which the 15-bit port cannot carry (48_io.md R246). Safe. -/
  | inputCodeTooLarge
  /-- Raised by `deliver` on a change of stop_req where HOST_STOP is false: there is no such input (40_sequencer.md
  R123). Safe. -/
  | noStopInput
deriving DecidableEq, Repr

/-- The state right after reset (70_reset_and_hazards.md R290). The image, which an external loader supplies (R292), is
the empty one here: DESIGN CHOICE (log 7), unsafe to lean on. The host's side is at rest: no character offered, the sink
accepting, no stop requested: DESIGN CHOICE (log 8), unsafe to lean on. -/
def State.reset : State where
  regs := Vector.replicate 8 0
  pc := 0
  mem := []
  stack := []
  status := .running
  faultCode := 0
  faultPc := 0
  faultInfo := 0
  output := []
  input := []
  consumed := 0
  outReady := true
  stopReq := false
  params := { image := [], memWords := 0, stackDepth := defaultStackDepth, hostStop := defaultHostStop }

end Sys2Proof.Machine
end

