-- ==== Sys2Proof/Machine/Ops.lean ====
section
/-! DEFINITION. The named operations over memory, registers, stack and ports, and the one fault entry. -/

namespace Sys2Proof.Machine

/-! ### Codes -/

/-- The 2-bit status code (10_state.md R45). -/
def Status.code : Status → BitVec 2
  | .running => 0
  | .halted => 1
  | .faulted => 2
  | .stopped => 3

/-- The 4-bit cause code (60_exceptions.md R261); 0 means no fault recorded. -/
def FaultKind.code : FaultKind → BitVec 4
  | .invalidOperand => 1
  | .invalidRegister => 2
  | .invalidArguments => 3
  | .invalidMemoryAccess => 4
  | .stackUnderflow => 5
  | .unknownOpcode => 6
  | .divideByZero => 7
  | .wordOutOfRange => 8
  | .stackOverflow => 9

/-! ### Memory -/

/-- What a byte that is not listed reads as. An image gives every byte of the extent, so this is how a zero byte is
held. DESIGN CHOICE (log 2), unsafe. -/
def Memory.unlisted : Byte := 0

/-- The byte at byte address `a`. -/
def Memory.read : Memory → Nat → Byte
  | [], _ => Memory.unlisted
  | (k, v) :: m, a => if k = a then v else Memory.read m a

/-- Replace the byte at byte address `a`, keeping the canonical form. -/
def Memory.write : Memory → Nat → Byte → Memory
  | [], a, b => if b = Memory.unlisted then [] else [(a, b)]
  | (k, v) :: m, a, b =>
    if a < k then (if b = Memory.unlisted then (k, v) :: m else (a, b) :: (k, v) :: m)
    else if a = k then (if b = Memory.unlisted then m else (a, b) :: m)
    else (k, v) :: Memory.write m a b

/-- Canonical from address `lo` up: addresses strictly rising, none below `lo`, no byte that an unlisted address reads
as. -/
def Memory.wfFrom : Nat → Memory → Bool
  | _, [] => true
  | lo, (k, v) :: m => decide (lo ≤ k) && decide (v ≠ Memory.unlisted) && Memory.wfFrom (k + 1) m

/-- The canonical form, so that equal memories are equal lists. -/
def Memory.wf (m : Memory) : Bool := Memory.wfFrom 0 m

/-- Every listed byte lies below byte address `n`. -/
def Memory.below (n : Nat) (m : Memory) : Bool := m.all fun kv => decide (kv.1 < n)

/-- Cell `a`: bytes 2a (low) and 2a + 1 (high) (20_memory.md R62, R63). -/
def Memory.readWord (m : Memory) (a : Nat) : MemWord := wordOfBytes (m.read (2 * a)) (m.read (2 * a + 1))

/-- Store a cell: bytes 2a (low) and 2a + 1 (high) (20_memory.md R62, R63). -/
def Memory.writeWord (m : Memory) (a : Nat) (w : MemWord) : Memory :=
  (m.write (2 * a) (lowByte w)).write (2 * a + 1) (highByte w)

/-- The canonical list of the bytes of an image, the first at byte address `k` (20_memory.md R63). -/
def Memory.ofBytes : Nat → List Byte → Memory
  | _, [] => []
  | k, b :: bs => if b = Memory.unlisted then Memory.ofBytes (k + 1) bs else (k, b) :: Memory.ofBytes (k + 1) bs

/-- `M[a]`. -/
def State.cell (s : State) (a : Nat) : MemWord := s.mem.readWord a

/-- `M[a] <- w`. -/
def State.storeCell (s : State) (a : Nat) (w : MemWord) : State := { s with mem := s.mem.writeWord a w }

/-- The read port `MemRead(addr, count)` (20_memory.md R67): the count check, then the extent check, whose action is the
caller's, then the words. -/
def memRead (s : State) (addr : MemWord) (count : Nat) (outside : Raise) : Except Raise (List MemWord) :=
  if count = 0 ∨ 32768 < count then .error ⟨.invalidMemoryAccess, addr⟩
  else if s.params.memWords.val < addr.toNat + count then .error outside
  else .ok ((List.range count).map fun k => s.cell (addr.toNat + k))

/-- The write port `MemWrite(addr, 1, v)` (20_memory.md R68). -/
def memWrite (s : State) (addr w : MemWord) : Except Raise State :=
  if s.params.memWords.val ≤ addr.toNat then .error ⟨.invalidMemoryAccess, addr⟩
  else .ok (s.storeCell addr.toNat w)

/-- The cells of the extent from the pc on, at most the four of the longest instruction: the window a decoder sees
(30_encoding.md R96). -/
def State.fetchWords (s : State) : List MemWord :=
  (List.range (min 4 (s.params.memWords.val - s.pc.toNat))).map fun k => s.cell (s.pc.toNat + k)

/-! ### Registers and program counter -/

/-- `x[i]` (00_scope.md R15). No register is hard-wired (10_state.md R32). -/
def State.reg (s : State) (i : Fin 8) : Word := s.regs[i.val]

/-- `x[i] <- v` (00_scope.md R15). -/
def State.setReg (s : State) (i : Fin 8) (v : Word) : State := { s with regs := s.regs.set i.val v }

/-- The default advance `pc <- pc + 1 + n` (40_sequencer.md R130). -/
def State.advance (s : State) (n : Nat) : State := { s with pc := s.pc + BitVec.ofNat 16 (1 + n) }

/-- `pc <- t` for a resolved target (45_branch.md R190). -/
def State.jump (s : State) (t : Word) : State := { s with pc := zext16 t }

/-! ### Stack -/

/-- A finite stack holds STACK_DEPTH entries (10_state.md R40). -/
def State.stackFull (s : State) : Bool :=
  match s.params.stackDepth with
  | none => false
  | some d => decide (s.stack.length = d)

/-- `push(v)`, for the instruction whose opcode word is `op` (10_state.md R40, R41). -/
def pushEntry (s : State) (op e : MemWord) : Except Raise State :=
  if s.stackFull then .error ⟨.stackOverflow, op⟩ else .ok { s with stack := s.stack ++ [e] }

/-- `S <- init(S)` (10_state.md R42). -/
def State.dropTop (s : State) : State := { s with stack := s.stack.dropLast }

/-! ### Ports -/

/-- `OutWrite(v)`: the transfer that appends to the trace (48_io.md R240). -/
def State.outWrite (s : State) (v : Word) : State := { s with output := s.output ++ [v] }

/-- `InRead()`: the character taken and the state after, or none while no character is offered (48_io.md R245). -/
def State.inRead (s : State) : Option (Word × State) :=
  match s.input with
  | [] => none
  | ch :: rest => some (ch, { s with input := rest, consumed := s.consumed + 1 })

/-! ### Run status and faults -/

/-- `halt_core()` (00_scope.md R18, 41_machine_control.md R150). -/
def State.haltCore (s : State) : State := { s with status := .halted }

/-- The fault entry (60_exceptions.md R262), the only one: status and the three fields of the record, nothing else. There
is no handler, no vector and no return (R260, R274, R275); only reset leaves the state (R290). -/
def State.takeFault (s : State) (r : Raise) : State :=
  { s with status := .faulted, faultCode := r.kind.code, faultPc := s.pc, faultInfo := r.info }

/-- How an instruction ends. A raise discards all it did and enters the fault from the state it began in: faults are
precise (40_sequencer.md R132). -/
def State.finish (s : State) : Except Raise State → Host.Outcome State Fault Refusal
  | .ok t => .next t
  | .error r => .next (s.takeFault r)

/-- A step that is not enabled: `in` without a character, `out` without a ready sink (40_sequencer.md R121). The state
stays as it is, status RUNNING. DESIGN CHOICE (log 3). -/
def State.hold (s : State) : State := s

end Sys2Proof.Machine
end

