-- ==== Sys2Proof/Machine/Operands.lean ====
section
/-! DEFINITION. Operand resolution and the shapes instructions share (40_sequencer.md R126 to R131). -/

namespace Sys2Proof.Machine

/-- `resolve(w)` for an operand word of the given class (40_sequencer.md R126). -/
def resolve (o : Operand) (s : State) : Except Raise Word :=
  match o with
  | .lit v => .ok v
  | .reg i => .ok (s.reg i)
  | .invalid w => .error ⟨.invalidOperand, w⟩

/-- `dest(w)` for an operand word of the given class (40_sequencer.md R127): the register named, never its value. -/
def dest (o : Operand) : Except Raise (Fin 8) :=
  match o with
  | .reg i => .ok i
  | .lit v => .error ⟨.invalidRegister, zext16 v⟩
  | .invalid w => .error ⟨.invalidRegister, w⟩

/-- `resolve(p)` of a popped 16-bit entry (43_stack.md R171, 45_branch.md R194, 92_eei_decisions.md D25). -/
def resolveEntry (p : MemWord) (s : State) : Except Raise Word := resolve (.ofWord p) s

/-- Destination check, register write, default advance with arity `n`: how every register-writing instruction without
a port ends (40_sequencer.md R129 to R131). -/
def writeDest (a : Operand) (v : Word) (n : Nat) (s : State) : Except Raise State := do
  let i ← dest a
  .ok ((s.setReg i v).advance n)

/-- `op a b` with one source: resolve b, then the destination (40_sequencer.md R131). -/
def unaryOp (f : Word → Word) (a b : Operand) (s : State) : Host.Outcome State Fault Refusal :=
  s.finish do
    let vb ← resolve b s
    writeDest a (f vb) 2 s

/-- `op a b c` with two sources: resolve b, then c, then the instruction's own value check, then the destination
(40_sequencer.md R131). -/
def binaryOp (f : Word → Word → Except Raise Word) (a b c : Operand) (s : State) :
    Host.Outcome State Fault Refusal :=
  s.finish do
    let vb ← resolve b s
    let vc ← resolve c s
    let v ← f vb vc
    writeDest a v 3 s

end Sys2Proof.Machine
end

