-- ==== Sys2Proof/Machine/Alu.lean ====
section
/-! DEFINITION. ALU instructions: add, mult, mod, and, or, not (46_alu.md). Every result is computed exactly on naturals and
narrowed at the end (R216), or is bitwise on 15 bits. -/

namespace Sys2Proof.Machine

/-- (x + y) mod 32768 (46_alu.md R210). -/
def addWord (x y : Word) : Word := BitVec.ofNat 15 ((x.toNat + y.toNat) % 32768)

/-- (x * y) mod 32768, the product exact (46_alu.md R211). -/
def multWord (x y : Word) : Word := BitVec.ofNat 15 ((x.toNat * y.toNat) % 32768)

/-- x mod y, unsigned (46_alu.md R212), for y other than 0. -/
def modWord (x y : Word) : Word := BitVec.ofNat 15 (x.toNat % y.toNat)

/-- The remainder, or DivideByZero with the raw divisor word (46_alu.md R212). -/
def modChecked (c : Operand) (x y : Word) : Except Raise Word :=
  if y.toNat = 0 then .error ⟨.divideByZero, c.word⟩ else .ok (modWord x y)

/-- Bitwise AND on 15 bits (46_alu.md R213). -/
def andWord (x y : Word) : Word := x &&& y

/-- Bitwise OR on 15 bits (46_alu.md R214). -/
def orWord (x y : Word) : Word := x ||| y

/-- The 15-bit complement (46_alu.md R215). -/
def notWord (x : Word) : Word := ~~~x

/-- `add a b c` (46_alu.md R210). -/
def execAdd (a b c : Operand) (s : State) : Host.Outcome State Fault Refusal :=
  binaryOp (fun x y => .ok (addWord x y)) a b c s

/-- `mult a b c` (46_alu.md R211). -/
def execMult (a b c : Operand) (s : State) : Host.Outcome State Fault Refusal :=
  binaryOp (fun x y => .ok (multWord x y)) a b c s

/-- `mod a b c` (46_alu.md R212): the zero divisor is checked before the destination. -/
def execMod (a b c : Operand) (s : State) : Host.Outcome State Fault Refusal := binaryOp (modChecked c) a b c s

/-- `and a b c` (46_alu.md R213). -/
def execAnd (a b c : Operand) (s : State) : Host.Outcome State Fault Refusal :=
  binaryOp (fun x y => .ok (andWord x y)) a b c s

/-- `or a b c` (46_alu.md R214). -/
def execOr (a b c : Operand) (s : State) : Host.Outcome State Fault Refusal :=
  binaryOp (fun x y => .ok (orWord x y)) a b c s

/-- `not a b` (46_alu.md R215). -/
def execNot (a b : Operand) (s : State) : Host.Outcome State Fault Refusal := unaryOp notWord a b s

end Sys2Proof.Machine
end

