-- ==== Sys2Proof/Machine/Flags.lean ====
section
/-! DEFINITION. This ISA has no flags and no condition codes (10_state.md R48): a comparison writes 0 or 1 into a register
and a branch tests a resolved operand for zero. -/

namespace Sys2Proof.Machine

/-- 1 if the condition holds, else 0 (44_compare.md R180, R181). -/
def conditionWord (p : Bool) : Word := if p then 1 else 0

/-- The result of `eq` (44_compare.md R180). -/
def eqWord (x y : Word) : Word := conditionWord (decide (x.toNat = y.toNat))

/-- The result of `gt`: unsigned, strict (44_compare.md R181). -/
def gtWord (x y : Word) : Word := conditionWord (decide (x.toNat > y.toNat))

/-- The condition of `jt`: any nonzero value is true (45_branch.md R191). -/
def nonzero (v : Word) : Bool := decide (v.toNat ≠ 0)

end Sys2Proof.Machine
end

