-- ==== Sys2Proof/Machine/Branch.lean ====
section
/-! DEFINITION. Control transfer: jmp, jt, jf, call, ret (45_branch.md). -/

namespace Sys2Proof.Machine

/-- Jump to the resolved target if `taken`, else the default advance of a two-operand instruction; an untaken target is
never resolved (40_sequencer.md R128). -/
def branchTo (taken : Bool) (b : Operand) (s : State) : Except Raise State :=
  if taken then do
    let t ← resolve b s
    .ok (s.jump t)
  else .ok (s.advance 2)

/-- `jmp a` (45_branch.md R190). -/
def execJmp (a : Operand) (s : State) : Host.Outcome State Fault Refusal :=
  s.finish do
    let t ← resolve a s
    .ok (s.jump t)

/-- `jt a b` (45_branch.md R191). -/
def execJt (a b : Operand) (s : State) : Host.Outcome State Fault Refusal :=
  s.finish do
    let v ← resolve a s
    branchTo (nonzero v) b s

/-- `jf a b` (45_branch.md R192). -/
def execJf (a b : Operand) (s : State) : Host.Outcome State Fault Refusal :=
  s.finish do
    let v ← resolve a s
    branchTo (!nonzero v) b s

/-- `call a` (45_branch.md R193): the target is resolved before the push. -/
def execCall (a : Operand) (s : State) : Host.Outcome State Fault Refusal :=
  s.finish do
    let t ← resolve a s
    let u ← pushEntry s 17 (s.pc + 2)
    .ok (u.jump t)

/-- `ret` (45_branch.md R194): on an empty stack a clean halt that keeps the pc (92_eei_decisions.md D10, log 15); else
the popped entry is resolved and becomes the pc. -/
def execRet (s : State) : Host.Outcome State Fault Refusal :=
  s.finish
    (match s.stack.getLast? with
    | none => .ok s.haltCore
    | some p => do
      let t ← resolveEntry p s
      .ok (s.dropTop.jump t))

end Sys2Proof.Machine
end

