-- ==== Sys2Proof/Machine/CharIo.lean ====
section
/-! DEFINITION. Character I/O: out, in (48_io.md). -/

namespace Sys2Proof.Machine

/-- `out a` (48_io.md R242): the source is resolved, then the instruction holds until the sink accepts. -/
def execOut (a : Operand) (s : State) : Host.Outcome State Fault Refusal :=
  s.finish do
    let v ← resolve a s
    .ok (if s.outReady then (s.outWrite v).advance 1 else s.hold)

/-- `in a` (48_io.md R247): the destination is checked before the wait; then the instruction holds until a character is
offered. -/
def execInp (a : Operand) (s : State) : Host.Outcome State Fault Refusal :=
  s.finish do
    let i ← dest a
    .ok (match s.inRead with
      | none => s.hold
      | some (ch, t) => (t.setReg i ch).advance 1)

end Sys2Proof.Machine
end

