-- ==== Sys2Proof/Machine/Compare.lean ====
section
/-! DEFINITION. Comparisons: eq, gt (44_compare.md). -/

namespace Sys2Proof.Machine

/-- `eq a b c` (44_compare.md R180). -/
def execEq (a b c : Operand) (s : State) : Host.Outcome State Fault Refusal :=
  binaryOp (fun x y => .ok (eqWord x y)) a b c s

/-- `gt a b c` (44_compare.md R181). -/
def execGt (a b c : Operand) (s : State) : Host.Outcome State Fault Refusal :=
  binaryOp (fun x y => .ok (gtWord x y)) a b c s

end Sys2Proof.Machine
end

