-- ==== Sys2Proof/Machine/Control.lean ====
section
/-! DEFINITION. Machine control: halt, noop (41_machine_control.md). -/

namespace Sys2Proof.Machine

/-- `halt` (41_machine_control.md R150): the effect, then the default advance. -/
def execHalt (s : State) : Host.Outcome State Fault Refusal := s.finish (.ok (s.haltCore.advance 0))

/-- `noop` (41_machine_control.md R151). -/
def execNoop (s : State) : Host.Outcome State Fault Refusal := s.finish (.ok (s.advance 0))

end Sys2Proof.Machine
end

