-- ==== Sys2Proof/Machine/MemoryOps.lean ====
section
/-! DEFINITION. Memory instructions: rmem, wmem (47_memory_ops.md). -/

namespace Sys2Proof.Machine

/-- The value a cell gives a 15-bit register, or WordOutOfRange with the cell's value (47_memory_ops.md R230). -/
def cellValue (w : MemWord) : Except Raise Word :=
  if 32767 < w.toNat then .error ⟨.wordOutOfRange, w⟩ else .ok (BitVec.ofNat 15 w.toNat)

/-- The single word of a one-word read. The list has one element whenever the read port answers (20_memory.md R67). -/
def firstWord (ws : List MemWord) : MemWord := ws.headD 0

/-- `rmem a b` (47_memory_ops.md R230). -/
def execRmem (a b : Operand) (s : State) : Host.Outcome State Fault Refusal :=
  s.finish do
    let addr ← resolve b s
    let ws ← memRead s (zext16 addr) 1 ⟨.invalidMemoryAccess, zext16 addr⟩
    let v ← cellValue (firstWord ws)
    writeDest a v 2 s

/-- `wmem a b` (47_memory_ops.md R231): both sources before the extent check. -/
def execWmem (a b : Operand) (s : State) : Host.Outcome State Fault Refusal :=
  s.finish do
    let addr ← resolve a s
    let v ← resolve b s
    let t ← memWrite s (zext16 addr) (zext16 v)
    .ok (t.advance 2)

end Sys2Proof.Machine
end

