-- ==== Sys2Proof/Machine/RegisterSet.lean ====
section
/-! DEFINITION. Register move: set (42_register_set.md). -/

namespace Sys2Proof.Machine

/-- `set a b` (42_register_set.md R160). -/
def execSet (a b : Operand) (s : State) : Host.Outcome State Fault Refusal := unaryOp (fun v => v) a b s

end Sys2Proof.Machine
end

