-- ==== Sys2Proof/Machine/Stack.lean ====
section
/-! DEFINITION. Stack instructions: push, pop (43_stack.md). -/

namespace Sys2Proof.Machine

/-- `push a` (43_stack.md R170). -/
def execPush (a : Operand) (s : State) : Host.Outcome State Fault Refusal :=
  s.finish do
    let v ← resolve a s
    let t ← pushEntry s 2 (zext16 v)
    .ok (t.advance 1)

/-- `pop a` (43_stack.md R171): emptiness first, then the entry is resolved, then the destination. -/
def execPop (a : Operand) (s : State) : Host.Outcome State Fault Refusal :=
  s.finish
    (match s.stack.getLast? with
    | none => .error ⟨.stackUnderflow, 3⟩
    | some p => do
      let v ← resolveEntry p s
      writeDest a v 1 s.dropTop)

end Sys2Proof.Machine
end

