-- ==== Sys2Proof/Machine/Sequencer.lean ====
section
/-! DEFINITION. The parts of the step around `exec`: final states, the host stop, fetch and decode, and the placing of an
instruction where the next fetch finds it (40_sequencer.md R120 to R125). -/

namespace Sys2Proof.Machine

/-- What happens before a fetch, where it is all that happens: a final state does nothing (40_sequencer.md R120, R122; as
the same state, DESIGN CHOICE, log 4), and a requested stop only stops (R123). `none`: the CORE fetches. -/
def beforeFetch (s : State) : Option State :=
  match s.status with
  | .running => if s.params.hostStop && s.stopReq then some { s with status := .stopped } else none
  | _ => some s

/-- The raise of a decode that fails at the pc (40_sequencer.md R124, R125). -/
def fetchRaise (s : State) : DecodeError → Raise
  | .noOpcodeWord => ⟨.invalidMemoryAccess, s.pc⟩
  | .unknownOpcode op => ⟨.unknownOpcode, op⟩
  | .missingOperands op => ⟨.invalidArguments, op⟩

/-- Fetch and decode the instruction at the pc from memory as it stands (40_sequencer.md R124, R125; 20_memory.md R79). -/
def fetchInstr (s : State) : Except Raise Instr :=
  match decodeWords s.fetchWords with
  | .ok (i, _) => .ok i
  | .error e => .error (fetchRaise s e)

/-- One whole instruction of a running CORE: fetch, decode, execute (40_sequencer.md R121, R135). -/
def runInstr (s : State) : Host.Outcome State Fault Refusal :=
  match fetchInstr s with
  | .ok i => exec i s
  | .error r => .next (s.takeFault r)

/-- Words stored at consecutive cells from `a` on. -/
def placeWords : Nat → List MemWord → Memory → Memory
  | _, [], m => m
  | a, w :: ws, m => placeWords (a + 1) ws (m.writeWord a w)

/-- The extent that also takes in the four cells from the pc on, as far as addresses go (00_scope.md R9). -/
def extentWithFetch (s : State) : Fin 32769 :=
  ⟨min 32768 (max s.params.memWords.val (s.pc.toNat + 4)), by omega⟩

/-- `s` with the words of one instruction at the pc, the extent taking them in, and the CORE about to fetch (log 7):
status RUNNING and no stop requested. It stands for a load of the words from outside (70_reset_and_hazards.md R292). -/
def placeInstr (s : State) (nbits w : Nat) : State :=
  { s with
    mem := placeWords s.pc.toNat ((tableWords nbits w).take (32768 - s.pc.toNat)) s.mem
    status := .running
    stopReq := false
    params := { s.params with memWords := extentWithFetch s } }

end Sys2Proof.Machine
end

