-- ==== Sys2Proof/Machine/Step.lean ====
section
/-! DEFINITION. The step of the CORE (40_sequencer.md R135). -/

namespace Sys2Proof.Machine

/-- One step: nothing in a final state, the host stop if one is requested, else one whole instruction
(40_sequencer.md R135). -/
def step (s : State) : Host.Outcome State Fault Refusal :=
  match beforeFetch s with
  | some t => .next t
  | none => runInstr s

/-- `s` with the instruction whose bits are `w` stored where the next step fetches. -/
def State.withFetchWord (s : State) (nbits w : Nat) : State := placeInstr s nbits w

end Sys2Proof.Machine
end

