-- ==== Sys2Proof/Machine/Environment.lean ====
section
/-! DEFINITION. What the host can do to the CORE, between steps only: reset, image load, and its side of the ports
(70_reset_and_hazards.md R290 to R292; 20_memory.md R63 to R65; 48_io.md R241, R246; 40_sequencer.md R123). -/

namespace Sys2Proof.Machine

/-- The events of the host. -/
inductive HostEvent where
  /-- `rst` asserted and released (70_reset_and_hazards.md R290) -/
  | reset
  /-- `rst` with a new image supplied by the loader (70_reset_and_hazards.md R292) -/
  | load (image : List Byte)
  /-- the input source offers one more character code (48_io.md R245, R246) -/
  | offer (code : Nat)
  /-- the sink changes `out_ready` (48_io.md R241) -/
  | sinkReady (ready : Bool)
  /-- the host changes `stop_req` (40_sequencer.md R123) -/
  | stopRequest (asserted : Bool)
deriving DecidableEq, Repr

/-- Reset: every piece of the CORE's state takes its construction value and memory the image again, whatever it held; the
characters not yet taken stay with the source, the pins stay as the host drives them (70_reset_and_hazards.md R290; log
13). -/
def State.applyReset (s : State) : State :=
  { State.reset with
    mem := s.params.image
    input := s.input
    outReady := s.outReady
    stopReq := s.stopReq
    params := s.params }

/-- The parameters with the image of `bytes`, which fixes MEM_WORDS (20_memory.md R63). -/
def Params.withImage (p : Params) (bytes : List Byte) (h : bytes.length / 2 ≤ 32768) : Params :=
  { p with image := Memory.ofBytes 0 bytes, memWords := ⟨bytes.length / 2, by omega⟩ }

/-- The load contract: an odd byte length and more than 32768 words are refused; else the CORE is constructed with the
image (20_memory.md R63 to R65, 70_reset_and_hazards.md R292). -/
def loadImage (s : State) (bytes : List Byte) : Host.Outcome State Fault Refusal :=
  if bytes.length % 2 = 1 then .refused .imageOddLength
  else if h : bytes.length / 2 ≤ 32768 then .next { s with params := s.params.withImage bytes h }.applyReset
  else .refused .imageTooLong

/-- One more character at the end of I; a code the 15-bit port cannot carry is refused (48_io.md R246). -/
def offerChar (s : State) (code : Nat) : Host.Outcome State Fault Refusal :=
  if code ≤ 32767 then .next { s with input := s.input ++ [BitVec.ofNat 15 code] } else .refused .inputCodeTooLarge

/-- The new level of `stop_req`; without HOST_STOP there is no such input (40_sequencer.md R123). -/
def driveStop (s : State) (asserted : Bool) : Host.Outcome State Fault Refusal :=
  if s.params.hostStop then .next { s with stopReq := asserted } else .refused .noStopInput

/-- The effect of one host event. -/
def deliver (e : HostEvent) (s : State) : Host.Outcome State Fault Refusal :=
  match e with
  | .reset => .next s.applyReset
  | .load bytes => loadImage s bytes
  | .offer code => offerChar s code
  | .sinkReady ready => .next { s with outReady := ready }
  | .stopRequest asserted => driveStop s asserted

end Sys2Proof.Machine
end

