-- ==== Sys2Proof/Machine/Ports.lean ====
section
/-! DEFINITION. The port signals as functions of the state (48_io.md R241, R246; 10_state.md R45, R46). -/

namespace Sys2Proof.Machine

/-- The instruction the CORE is at, if it is about to execute one. -/
def currentInstr (s : State) : Option Instr :=
  match beforeFetch s with
  | some _ => none
  | none =>
    match fetchInstr s with
    | .ok i => some i
    | .error _ => none

/-- The code an `out` at the pc offers, if there is one and it resolves (48_io.md R241). -/
def offeredCode (s : State) : Option Word :=
  match currentInstr s with
  | some (.out a) =>
    match resolve a s with
    | .ok v => some v
    | .error _ => none
  | _ => none

/-- `out_valid`: an `out` offers its code (48_io.md R241). -/
def outValid (s : State) : Bool := (offeredCode s).isSome

/-- `out_data`; 0 while `out_valid` is not asserted, which the spec leaves unsaid. DESIGN CHOICE (log 8), unsafe to lean
on. -/
def outData (s : State) : Word := (offeredCode s).getD 0

/-- `in_req`: an `in` with a register destination is at the pc (48_io.md R246, R247). -/
def inReq (s : State) : Bool :=
  match currentInstr s with
  | some (.inp a) =>
    match dest a with
    | .ok _ => true
    | .error _ => false
  | _ => false

/-- `in_valid`: the host has a character to offer (48_io.md R245, R246). -/
def inValid (s : State) : Bool := !s.input.isEmpty

/-- `in_data`, the first character of I; 0 while `in_valid` is not asserted, which the spec leaves unsaid. DESIGN CHOICE
(log 8), unsafe to lean on. -/
def inData (s : State) : Word := s.input.headD 0

/-- The read-only status output (10_state.md R45). -/
def statusOut (s : State) : BitVec 2 := s.status.code

/-- The CORE waits: an `in` without a character or an `out` without a ready sink (60_exceptions.md R283). -/
def waiting (s : State) : Bool := (inReq s && !inValid s) || (outValid s && !s.outReady)

end Sys2Proof.Machine
end

