-- ==== Sys2Proof/Safety.lean ====
section
/-! DEFINITION. What a legal state is, which instruction may change what, and runs: the terms claims are stated in. -/

namespace Sys2Proof.Machine

/-! ### The invariant of the machine (95_test_vectors.md section 3) -/

/-- Memory and image are canonical and hold nothing beyond the extent (20_memory.md R68, R73). -/
abbrev State.memoryLegal (s : State) : Prop :=
  s.mem.wf = true ∧ s.mem.below (2 * s.params.memWords.val) = true ∧
    s.params.image.wf = true ∧ s.params.image.below (2 * s.params.memWords.val) = true

/-- A cell with bit 15 set is as the image loaded it (20_memory.md R69). -/
abbrev State.highCellsFromImage (s : State) : Prop :=
  ∀ a, a < s.params.memWords.val → 32768 ≤ (s.cell a).toNat → s.cell a = s.params.image.readWord a

/-- pc is in 0..32768 (10_state.md R34). -/
abbrev State.pcLegal (s : State) : Prop := s.pc.toNat ≤ 32768

/-- Every stack entry is in 0..32768, and a finite stack is not over its depth (10_state.md R39 to R41). -/
abbrev State.stackLegal (s : State) : Prop :=
  (∀ e ∈ s.stack, e.toNat ≤ 32768) ∧ (∀ d ∈ s.params.stackDepth, s.stack.length ≤ d)

/-- The record is empty unless the status is FAULTED, and then holds one of the nine codes and the pc; STOPPED only with
HOST_STOP (10_state.md R45, R46; 60_exceptions.md R261, R262). -/
abbrev State.statusLegal (s : State) : Prop :=
  (s.status ≠ .faulted → s.faultCode = 0 ∧ s.faultPc = 0 ∧ s.faultInfo = 0) ∧
    (s.status = .faulted → 1 ≤ s.faultCode.toNat ∧ s.faultCode.toNat ≤ 9 ∧ s.faultPc = s.pc) ∧
    (s.status = .stopped → s.params.hostStop = true)

/-- The invariant: what every state of a run satisfies. -/
abbrev State.Inv (s : State) : Prop :=
  s.memoryLegal ∧ s.highCellsFromImage ∧ s.pcLegal ∧ s.stackLegal ∧ s.statusLegal

/-! ### What an instruction may change -/

/-- The destination operand (role D) of the instructions that write a register (10_state.md R32, 30_encoding.md R94). -/
def destOperand : Instr → Option Operand
  | .set a _ => some a
  | .pop a => some a
  | .eq a _ _ => some a
  | .gt a _ _ => some a
  | .add a _ _ => some a
  | .mult a _ _ => some a
  | .mod a _ _ => some a
  | .and a _ _ => some a
  | .or a _ _ => some a
  | .not a _ => some a
  | .rmem a _ => some a
  | .inp a => some a
  | .halt => none
  | .push _ => none
  | .jmp _ => none
  | .jt _ _ => none
  | .jf _ _ => none
  | .wmem _ _ => none
  | .call _ => none
  | .ret => none
  | .out _ => none
  | .noop => none

/-- The cell address an instruction stores to: the resolved address operand of `wmem`, and no other instruction stores
(20_memory.md R69, R71). -/
def storeAddress : Instr → State → Option Nat
  | .wmem a _, s =>
    match resolve a s with
    | .ok addr => some addr.toNat
    | .error _ => none
  | _, _ => none

/-- The status and the fault record are as they were (R45, R46). -/
abbrev sameStatus (s t : State) : Prop :=
  t.status = s.status ∧ t.faultCode = s.faultCode ∧ t.faultPc = s.faultPc ∧ t.faultInfo = s.faultInfo

/-- The streams and the host's pins are as they were (48_io.md). -/
abbrev samePorts (s t : State) : Prop :=
  t.output = s.output ∧ t.input = s.input ∧ t.consumed = s.consumed ∧ t.outReady = s.outReady ∧ t.stopReq = s.stopReq

/-- Every byte of memory reads as it did, and the parameters are as they were. -/
abbrev sameMemory (s t : State) : Prop := (∀ a, t.mem.read a = s.mem.read a) ∧ t.params = s.params

/-- Every register reads as it did. -/
abbrev sameRegs (s t : State) : Prop := ∀ r, t.reg r = s.reg r

/-- `s` after the fault entry for kind `k` with info `v`: four fields written, nothing else (60_exceptions.md R262). -/
abbrev State.faultedWith (s : State) (k : FaultKind) (v : MemWord) : State :=
  { s with status := .faulted, faultCode := k.code, faultPc := s.pc, faultInfo := v }

/-- The operand is no register reference, so `dest` raises InvalidRegister (40_sequencer.md R127). -/
abbrev notRegister (o : Operand) : Prop := ∀ r, o ≠ .reg r

/-- RUNNING with no stop pending: the CORE fetches in this step (40_sequencer.md R122, R123). -/
abbrev State.fetching (s : State) : Prop := s.status = .running ∧ (s.params.hostStop && s.stopReq) = false

/-! ### Runs -/

/-- Execute instructions one after the other, as long as the status stays RUNNING. -/
def execAll : List Instr → State → Option State
  | [], s => some s
  | i :: is, s =>
    match exec i s with
    | .next t => if t.status = .running then execAll is t else none
    | .fault _ => none
    | .refused _ => none

/-- Sequences of push and pop in which every pop takes an entry the sequence itself pushed (43_stack.md R172). -/
inductive Balanced : List Instr → Prop
  | nil : Balanced []
  | block (a d : Operand) (is js : List Instr) : Balanced is → Balanced js →
      Balanced (.push a :: is ++ .pop d :: js)

/-- States reached from `s` by steps and host events. -/
inductive Reachable (s : State) : State → Prop
  | refl : Reachable s s
  | step (t u : State) : Reachable s t → Sys2Proof.Machine.step t = .next u → Reachable s u
  | event (e : HostEvent) (t u : State) : Reachable s t → deliver e t = .next u → Reachable s u

end Sys2Proof.Machine
end

