-- ==== Sys2Proof/Certificates/Slice0/Obligations.lean ====
section
/-! DEFINITION. The statements for the provers, from the numbered rules of spec/. -/

namespace Sys2Proof.Machine

/-- The rule of a three-operand instruction `op a b c` with a total result: its encoding, its effect and advance for every
form whose operands are fit, and its faults in check order b, c, a (40_sequencer.md R131). -/
def ThreeOperandRule (mk : Operand → Operand → Operand → Instr) (op : MemWord) (result : Nat → Nat → Nat) : Prop :=
  ∀ (a b c : Operand) (s : State),
    encode (mk a b c) = [op, a.word, b.word, c.word] ∧
    (∀ vb vc r, resolve b s = .ok vb → resolve c s = .ok vc → a = .reg r →
      ∃ v : Word, v.toNat = result vb.toNat vc.toNat ∧
        exec (mk a b c) s = .next { s with regs := s.regs.set r.val v, pc := s.pc + 4 }) ∧
    (∀ w, b = .invalid w → exec (mk a b c) s = .next (s.faultedWith .invalidOperand w)) ∧
    (∀ vb w, resolve b s = .ok vb → c = .invalid w →
      exec (mk a b c) s = .next (s.faultedWith .invalidOperand w)) ∧
    (∀ vb vc, resolve b s = .ok vb → resolve c s = .ok vc → notRegister a →
      exec (mk a b c) s = .next (s.faultedWith .invalidRegister a.word))

/-- The rule of a two-operand register-writing instruction `op a b`: encoding, effect and advance, faults in check order
b, a (40_sequencer.md R131). -/
def TwoOperandRule (mk : Operand → Operand → Instr) (op : MemWord) (result : Nat → Nat) : Prop :=
  ∀ (a b : Operand) (s : State),
    encode (mk a b) = [op, a.word, b.word] ∧
    (∀ vb r, resolve b s = .ok vb → a = .reg r →
      ∃ v : Word, v.toNat = result vb.toNat ∧
        exec (mk a b) s = .next { s with regs := s.regs.set r.val v, pc := s.pc + 3 }) ∧
    (∀ w, b = .invalid w → exec (mk a b) s = .next (s.faultedWith .invalidOperand w)) ∧
    (∀ vb, resolve b s = .ok vb → notRegister a →
      exec (mk a b) s = .next (s.faultedWith .invalidRegister a.word))

/-- The arity column of the catalog, by opcode number (30_encoding.md R95). -/
def catalogArity (op : Nat) : Nat :=
  [0, 2, 1, 1, 3, 3, 1, 2, 2, 3, 3, 3, 3, 3, 2, 2, 2, 1, 0, 1, 1, 0].getD op 0

/-- The `n` cells from address `a` on. -/
def cellsFrom (s : State) (a n : Nat) : List MemWord := (List.range n).map fun k => s.cell (a + k)

/-- What the frame of an instruction says of the status and the fault record: as they were, or the fault entry, which
then is all that happened. -/
abbrev statusFrame (s t : State) : Prop := sameStatus s t ∨ ∃ k v, t = s.faultedWith k v

end Sys2Proof.Machine

open Sys2Proof Sys2Proof.Machine

/-! ### Encoding (30_encoding.md) -/

/-- The decoder reads an instruction exactly where its encoding stands: both directions, every instruction and operand
(30_encoding.md R90, R93, R95). -/
def Obligations.DecodeInvertsEncode : Prop :=
  ∀ (ws rest : List MemWord) (i : Instr),
    decodeWords ws = .ok (i, rest) ↔ i.wf = true ∧ ws = encode i ++ rest

/-- The same at the level of image bytes (20_memory.md R63). -/
def Obligations.EncodedBytesDecode : Prop :=
  ∀ (i : Instr) (rest : List Byte), i.wf = true → decodeBytes (encodeBytes i ++ rest) = .ok (i, rest)

/-- Every opcode word of 22 and more is illegal and faults, no word of 21 and less is (30_encoding.md R97). -/
def Obligations.OpcodesAbove21AreUnknown : Prop :=
  (∀ (op : MemWord) (ws : List MemWord), 22 ≤ op.toNat → decodeWords (op :: ws) = .error (.unknownOpcode op)) ∧
  (∀ (op op' : MemWord) (ws : List MemWord), op.toNat ≤ 21 → decodeWords (op :: ws) ≠ .error (.unknownOpcode op')) ∧
  (∀ s : State, s.fetching → s.pc.toNat < s.params.memWords.val → 22 ≤ (s.cell s.pc.toNat).toNat →
    step s = .next (s.faultedWith .unknownOpcode (s.cell s.pc.toNat)))

/-- The three classes of an operand word, as the bit fields the spec derives from the value ranges (30_encoding.md R92).
That the word can be had back from its class is the model's reading (log 10). -/
def Obligations.OperandClassesByBitFields : Prop :=
  ∀ w : MemWord,
    (w.extractLsb' 15 1 = 0 → Operand.ofWord w = .lit (w.extractLsb' 0 15)) ∧
    (w.extractLsb' 15 1 = 1 → w.extractLsb' 3 12 = 0 →
      ∃ r : Fin 8, r.val = (w.extractLsb' 0 3).toNat ∧ Operand.ofWord w = .reg r) ∧
    (w.extractLsb' 15 1 = 1 → w.extractLsb' 3 12 ≠ 0 → Operand.ofWord w = .invalid w) ∧
    (Operand.ofWord w).word = w

/-- The source's encoded programs decode as the spec lists them (30_encoding.md R103). -/
def Obligations.SourceImagesDecode : Prop :=
  decodeWords [0] = .ok (.halt, []) ∧
  decodeWords [19, 65, 0] = .ok (.out (.lit 65), [0]) ∧
  decodeWords [9, 32768, 32767, 1, 19, 32768, 0] = .ok (.add (.reg 0) (.lit 32767) (.lit 1), [19, 32768, 0]) ∧
  decodeWords [19, 32768, 0] = .ok (.out (.reg 0), [0]) ∧
  decodeWords [17, 9, 21, 21, 21, 19, 65, 18, 0] = .ok (.call (.lit 9), [21, 21, 21, 19, 65, 18, 0]) ∧
  decodeWords [21, 21, 21, 19, 65, 18, 0] = .ok (.noop, [21, 21, 19, 65, 18, 0]) ∧
  decodeWords [21, 21, 19, 65, 18, 0] = .ok (.noop, [21, 19, 65, 18, 0]) ∧
  decodeWords [21, 19, 65, 18, 0] = .ok (.noop, [19, 65, 18, 0]) ∧
  decodeWords [19, 65, 18, 0] = .ok (.out (.lit 65), [18, 0]) ∧
  decodeWords [18, 0] = .ok (.ret, [0])

/-! ### Sequencer (40_sequencer.md) -/

/-- Where the cells at the pc hold the words of a well-formed instruction, the step is `exec` of it: nothing is added
around it, and `exec` moves the pc (40_sequencer.md R121, R135). -/
def Obligations.StepExecutesTheInstructionAtThePc : Prop :=
  ∀ (s : State) (i : Instr), s.fetching → i.wf = true → s.pc.toNat + i.length ≤ s.params.memWords.val →
    cellsFrom s s.pc.toNat i.length = encode i → step s = exec i s

/-- An opcode fetch outside the extent faults InvalidMemoryAccess(pc) (40_sequencer.md R124). -/
def Obligations.FetchBeyondTheExtentFaults : Prop :=
  ∀ s : State, s.fetching → s.params.memWords.val ≤ s.pc.toNat →
    step s = .next (s.faultedWith .invalidMemoryAccess s.pc)

/-- Decode: catalog check, then the operand words, then the instruction with its raw operands (40_sequencer.md R125). -/
def Obligations.DecodeChecksCatalogThenOperands : Prop :=
  ∀ s : State, s.fetching → s.pc.toNat < s.params.memWords.val →
    (21 < (s.cell s.pc.toNat).toNat → step s = .next (s.faultedWith .unknownOpcode (s.cell s.pc.toNat))) ∧
    ((s.cell s.pc.toNat).toNat ≤ 21 →
      s.params.memWords.val ≤ s.pc.toNat + catalogArity (s.cell s.pc.toNat).toNat →
      step s = .next (s.faultedWith .invalidArguments (s.cell s.pc.toNat))) ∧
    ((s.cell s.pc.toNat).toNat ≤ 21 →
      s.pc.toNat + catalogArity (s.cell s.pc.toNat).toNat < s.params.memWords.val →
      ∃ i : Instr, opcodeWord i = s.cell s.pc.toNat ∧
        i.operands = (cellsFrom s (s.pc.toNat + 1) (catalogArity (s.cell s.pc.toNat).toNat)).map Operand.ofWord ∧
        step s = exec i s)

/-- HALTED, FAULTED and STOPPED are final (40_sequencer.md R120, R122). That a final state's step answers the same
state is the model's choice (log 4). -/
def Obligations.FinalStatesDoNothing : Prop := ∀ s : State, s.status ≠ .running → step s = .next s

/-- With HOST_STOP a requested stop only stops; without it the request has no effect at all (40_sequencer.md R123). That
each poll of a waiting `in` or `out` samples the request again is the model's choice (log 12). -/
def Obligations.HostStopEndsTheRunOrIsAbsent : Prop :=
  (∀ s : State, s.status = .running → s.params.hostStop = true → s.stopReq = true →
    step s = .next { s with status := .stopped }) ∧
  (∀ (s t : State) (asserted : Bool), s.params.hostStop = false → step s = .next t →
    step { s with stopReq := asserted } = .next { t with stopReq := asserted })

/-- No step stops the model: every state has a next state, with the same parameters. That a waiting and a final CORE
keep their state, and that a fault of the spec is a state, are the model's choices (log 3, log 4, log 5). -/
def Obligations.EveryStepAnswersANextState : Prop := ∀ s : State, ∃ t, step s = .next t ∧ t.params = s.params

/-- `resolve(w)` for every 16-bit word (40_sequencer.md R126). -/
def Obligations.ResolveByOperandWord : Prop :=
  ∀ (w : MemWord) (s : State),
    (w.toNat ≤ 32767 → ∃ v, resolve (.ofWord w) s = .ok v ∧ v.toNat = w.toNat) ∧
    (∀ r : Fin 8, w.toNat = 32768 + r.val → resolve (.ofWord w) s = .ok (s.reg r)) ∧
    (32776 ≤ w.toNat → resolve (.ofWord w) s = .error ⟨.invalidOperand, w⟩)

/-- `dest(w)` for every 16-bit word (40_sequencer.md R127). -/
def Obligations.DestByOperandWord : Prop :=
  ∀ w : MemWord,
    (∀ r : Fin 8, w.toNat = 32768 + r.val → dest (.ofWord w) = .ok r) ∧
    (w.toNat < 32768 ∨ 32776 ≤ w.toNat → dest (.ofWord w) = .error ⟨.invalidRegister, w⟩)

/-- A step that ends FAULTED changes the status and the record and nothing else (40_sequencer.md R132, 60_exceptions.md
R262). -/
def Obligations.FaultsArePrecise : Prop :=
  ∀ s t : State, s.status = .running → step s = .next t → t.status = .faulted →
    ∃ k v, t = s.faultedWith k v

/-- An operand that is not consumed does not matter, whatever its class (40_sequencer.md R128, 30_encoding.md R98). -/
def Obligations.UntakenTargetsAreNeverResolved : Prop :=
  ∀ (a b b' : Operand) (s : State) (v : Word), resolve a s = .ok v →
    (v = 0 → exec (.jt a b) s = exec (.jt a b') s ∧ exec (.jt a b) s = .next { s with pc := s.pc + 3 }) ∧
    (v ≠ 0 → exec (.jf a b) s = exec (.jf a b') s ∧ exec (.jf a b) s = .next { s with pc := s.pc + 3 })

/-! ### Machine control (41_machine_control.md) -/

/-- `halt` (41_machine_control.md R150). -/
def Obligations.HaltEndsTheRunAfterAdvancing : Prop :=
  ∀ s : State, encode .halt = [0] ∧ exec .halt s = .next { s with status := .halted, pc := s.pc + 1 }

/-- `noop` (41_machine_control.md R151). -/
def Obligations.NoopOnlyAdvances : Prop :=
  ∀ s : State, encode .noop = [21] ∧ exec .noop s = .next { s with pc := s.pc + 1 }

/-! ### Register move (42_register_set.md) -/

/-- `set` (42_register_set.md R160), and the register then resolves to the value set. -/
def Obligations.SetWritesTheResolvedSource : Prop :=
  TwoOperandRule .set 1 (fun v => v) ∧
  (∀ (r : Fin 8) (b : Operand) (v : Word) (s : State), resolve b s = .ok v →
    ∃ t, exec (.set (.reg r) b) s = .next t ∧ resolve (.reg r) t = .ok v)

/-! ### Stack (43_stack.md) -/

/-- `push` (43_stack.md R170). -/
def Obligations.PushAppendsTheResolvedSource : Prop :=
  ∀ (a : Operand) (s : State),
    encode (.push a) = [2, a.word] ∧
    (∀ w, a = .invalid w → exec (.push a) s = .next (s.faultedWith .invalidOperand w)) ∧
    (∀ v d, resolve a s = .ok v → s.params.stackDepth = some d → s.stack.length = d →
      exec (.push a) s = .next (s.faultedWith .stackOverflow 2)) ∧
    (∀ v, resolve a s = .ok v → s.params.stackDepth ≠ some s.stack.length →
      exec (.push a) s = .next { s with stack := s.stack ++ [v.zeroExtend 16], pc := s.pc + 2 })

/-- `pop` (43_stack.md R171), for every entry a stack holds (0..32768, 10_state.md R39). -/
def Obligations.PopResolvesTheTopEntry : Prop :=
  ∀ (a : Operand) (s : State),
    encode (.pop a) = [3, a.word] ∧
    (s.stack = [] → exec (.pop a) s = .next (s.faultedWith .stackUnderflow 3)) ∧
    (∀ rest p, s.stack = rest ++ [p] → p.toNat ≤ 32768 → notRegister a →
      exec (.pop a) s = .next (s.faultedWith .invalidRegister a.word)) ∧
    (∀ rest p r, s.stack = rest ++ [p] → p.toNat ≤ 32767 → a = .reg r →
      ∃ v : Word, v.toNat = p.toNat ∧
        exec (.pop a) s = .next { s with stack := rest, regs := s.regs.set r.val v, pc := s.pc + 2 }) ∧
    (∀ rest r, s.stack = rest ++ [32768] → a = .reg r →
      exec (.pop a) s = .next { s with stack := rest, regs := s.regs.set r.val (s.reg 0), pc := s.pc + 2 })

/-- The LIFO law (43_stack.md R172): a balanced sequence that runs without a fault leaves the stack as it was, and the
pop that closes a push stores the value pushed. -/
def Obligations.EveryPopStoresTheLatestOpenPush : Prop :=
  ∀ is : List Instr, Balanced is → ∀ s t : State,
    (execAll is s = some t → t.stack = s.stack) ∧
    (∀ (a : Operand) (v : Word) (r : Fin 8), resolve a s = .ok v →
      execAll (.push a :: is ++ [.pop (.reg r)]) s = some t → t.reg r = v ∧ t.stack = s.stack)

/-! ### Comparisons (44_compare.md) -/

/-- `eq` (44_compare.md R180). -/
def Obligations.EqWritesOneOnEquality : Prop := ThreeOperandRule .eq 4 (fun x y => if x = y then 1 else 0)

/-- `gt` (44_compare.md R181). -/
def Obligations.GtComparesUnsignedStrictly : Prop := ThreeOperandRule .gt 5 (fun x y => if y < x then 1 else 0)

/-! ### Control transfer (45_branch.md) -/

/-- `jmp` (45_branch.md R190): any resolved target is taken, inside the extent or not. -/
def Obligations.JmpGoesToTheResolvedTarget : Prop :=
  ∀ (a : Operand) (s : State),
    encode (.jmp a) = [6, a.word] ∧
    (∀ w, a = .invalid w → exec (.jmp a) s = .next (s.faultedWith .invalidOperand w)) ∧
    (∀ t, resolve a s = .ok t → exec (.jmp a) s = .next { s with pc := t.zeroExtend 16 })

/-- `jt` (45_branch.md R191). -/
def Obligations.JtJumpsIfNonzero : Prop :=
  ∀ (a b : Operand) (s : State),
    encode (.jt a b) = [7, a.word, b.word] ∧
    (∀ w, a = .invalid w → exec (.jt a b) s = .next (s.faultedWith .invalidOperand w)) ∧
    (∀ v, resolve a s = .ok v → v.toNat = 0 → exec (.jt a b) s = .next { s with pc := s.pc + 3 }) ∧
    (∀ v w, resolve a s = .ok v → v.toNat ≠ 0 → b = .invalid w →
      exec (.jt a b) s = .next (s.faultedWith .invalidOperand w)) ∧
    (∀ v t, resolve a s = .ok v → v.toNat ≠ 0 → resolve b s = .ok t →
      exec (.jt a b) s = .next { s with pc := t.zeroExtend 16 })

/-- `jf` (45_branch.md R192). -/
def Obligations.JfJumpsIfZero : Prop :=
  ∀ (a b : Operand) (s : State),
    encode (.jf a b) = [8, a.word, b.word] ∧
    (∀ w, a = .invalid w → exec (.jf a b) s = .next (s.faultedWith .invalidOperand w)) ∧
    (∀ v, resolve a s = .ok v → v.toNat ≠ 0 → exec (.jf a b) s = .next { s with pc := s.pc + 3 }) ∧
    (∀ v w, resolve a s = .ok v → v.toNat = 0 → b = .invalid w →
      exec (.jf a b) s = .next (s.faultedWith .invalidOperand w)) ∧
    (∀ v t, resolve a s = .ok v → v.toNat = 0 → resolve b s = .ok t →
      exec (.jf a b) s = .next { s with pc := t.zeroExtend 16 })

/-- `call` (45_branch.md R193). -/
def Obligations.CallPushesTheReturnAddress : Prop :=
  ∀ (a : Operand) (s : State),
    encode (.call a) = [17, a.word] ∧
    (∀ w, a = .invalid w → exec (.call a) s = .next (s.faultedWith .invalidOperand w)) ∧
    (∀ t d, resolve a s = .ok t → s.params.stackDepth = some d → s.stack.length = d →
      exec (.call a) s = .next (s.faultedWith .stackOverflow 17)) ∧
    (∀ t, resolve a s = .ok t → s.params.stackDepth ≠ some s.stack.length →
      exec (.call a) s = .next { s with stack := s.stack ++ [s.pc + 2], pc := t.zeroExtend 16 })

/-- `ret` (45_branch.md R194), for every entry a stack holds (0..32768, 10_state.md R39). -/
def Obligations.RetResolvesTheTopEntryOrHalts : Prop :=
  ∀ s : State,
    encode .ret = [18] ∧
    (s.stack = [] → exec .ret s = .next { s with status := .halted }) ∧
    (∀ rest p, s.stack = rest ++ [p] → p.toNat ≤ 32767 → exec .ret s = .next { s with stack := rest, pc := p }) ∧
    (∀ rest, s.stack = rest ++ [32768] →
      exec .ret s = .next { s with stack := rest, pc := (s.reg 0).zeroExtend 16 })

/-! ### ALU (46_alu.md) -/

/-- `add` (46_alu.md R210). -/
def Obligations.AddIsModulo32768 : Prop := ThreeOperandRule .add 9 (fun x y => (x + y) % 32768)

/-- `mult` (46_alu.md R211). -/
def Obligations.MultIsModulo32768 : Prop := ThreeOperandRule .mult 10 (fun x y => (x * y) % 32768)

/-- `mod` (46_alu.md R212): the divisor is checked between the sources and the destination. -/
def Obligations.ModIsTheUnsignedRemainder : Prop :=
  ∀ (a b c : Operand) (s : State),
    encode (.mod a b c) = [11, a.word, b.word, c.word] ∧
    (∀ w, b = .invalid w → exec (.mod a b c) s = .next (s.faultedWith .invalidOperand w)) ∧
    (∀ vb w, resolve b s = .ok vb → c = .invalid w →
      exec (.mod a b c) s = .next (s.faultedWith .invalidOperand w)) ∧
    (∀ vb vc, resolve b s = .ok vb → resolve c s = .ok vc → vc.toNat = 0 →
      exec (.mod a b c) s = .next (s.faultedWith .divideByZero c.word)) ∧
    (∀ vb vc, resolve b s = .ok vb → resolve c s = .ok vc → vc.toNat ≠ 0 → notRegister a →
      exec (.mod a b c) s = .next (s.faultedWith .invalidRegister a.word)) ∧
    (∀ vb vc r, resolve b s = .ok vb → resolve c s = .ok vc → vc.toNat ≠ 0 → a = .reg r →
      ∃ v : Word, v.toNat = vb.toNat % vc.toNat ∧
        exec (.mod a b c) s = .next { s with regs := s.regs.set r.val v, pc := s.pc + 4 })

/-- `and` (46_alu.md R213), as bitwise AND of naturals. -/
def Obligations.AndIsBitwise : Prop := ThreeOperandRule .and 12 (fun x y => x &&& y)

/-- `or` (46_alu.md R214), as bitwise OR of naturals. -/
def Obligations.OrIsBitwise : Prop := ThreeOperandRule .or 13 (fun x y => x ||| y)

/-- `not` (46_alu.md R215), the 15-bit complement: 32767 - v. -/
def Obligations.NotIsTheFifteenBitComplement : Prop := TwoOperandRule .not 14 (fun x => 32767 - x)

/-! ### Memory instructions (47_memory_ops.md) -/

/-- `rmem` (47_memory_ops.md R230), with every fault in check order. -/
def Obligations.RmemReadsOneCell : Prop :=
  ∀ (a b : Operand) (s : State),
    encode (.rmem a b) = [15, a.word, b.word] ∧
    (∀ w, b = .invalid w → exec (.rmem a b) s = .next (s.faultedWith .invalidOperand w)) ∧
    (∀ addr, resolve b s = .ok addr → s.params.memWords.val ≤ addr.toNat →
      exec (.rmem a b) s = .next (s.faultedWith .invalidMemoryAccess (addr.zeroExtend 16))) ∧
    (∀ addr, resolve b s = .ok addr → addr.toNat < s.params.memWords.val → 32767 < (s.cell addr.toNat).toNat →
      exec (.rmem a b) s = .next (s.faultedWith .wordOutOfRange (s.cell addr.toNat))) ∧
    (∀ addr, resolve b s = .ok addr → addr.toNat < s.params.memWords.val → (s.cell addr.toNat).toNat ≤ 32767 →
      notRegister a → exec (.rmem a b) s = .next (s.faultedWith .invalidRegister a.word)) ∧
    (∀ addr r, resolve b s = .ok addr → addr.toNat < s.params.memWords.val → (s.cell addr.toNat).toNat ≤ 32767 →
      a = .reg r →
      ∃ v : Word, v.toNat = (s.cell addr.toNat).toNat ∧
        exec (.rmem a b) s = .next { s with regs := s.regs.set r.val v, pc := s.pc + 3 })

/-- `wmem` (47_memory_ops.md R231), with every fault in check order. The cell stored to reads as the value (in a memory of
canonical form, which State.Inv says of every state of a run), every byte of every other cell reads as before. The place
of a cell's bytes and the canonical form are the model's choice (log 1, log 2). -/
def Obligations.WmemWritesOneCell : Prop :=
  ∀ (a b : Operand) (s : State),
    encode (.wmem a b) = [16, a.word, b.word] ∧
    (∀ w, a = .invalid w → exec (.wmem a b) s = .next (s.faultedWith .invalidOperand w)) ∧
    (∀ addr w, resolve a s = .ok addr → b = .invalid w →
      exec (.wmem a b) s = .next (s.faultedWith .invalidOperand w)) ∧
    (∀ addr v, resolve a s = .ok addr → resolve b s = .ok v → s.params.memWords.val ≤ addr.toNat →
      exec (.wmem a b) s = .next (s.faultedWith .invalidMemoryAccess (addr.zeroExtend 16))) ∧
    (∀ addr v, resolve a s = .ok addr → resolve b s = .ok v → addr.toNat < s.params.memWords.val →
      ∃ m : Memory, exec (.wmem a b) s = .next { s with mem := m, pc := s.pc + 3 } ∧
        (s.mem.wf = true → m.readWord addr.toNat = v.zeroExtend 16) ∧
        ∀ k, k ≠ 2 * addr.toNat → k ≠ 2 * addr.toNat + 1 → m.read k = s.mem.read k)

/-- `wmem a b` and then `rmem c a` gives register c the value of b, where a resolves to the same address both times, which
it does because wmem writes no register (47_memory_ops.md R231). The memory is in canonical form, as in State.Inv. -/
def Obligations.WmemThenRmemRoundTrip : Prop :=
  ∀ (a b : Operand) (r : Fin 8) (addr v : Word) (s t : State),
    s.mem.wf = true → resolve a s = .ok addr → resolve b s = .ok v → addr.toNat < s.params.memWords.val →
    exec (.wmem a b) s = .next t →
    ∃ u, exec (.rmem (.reg r) a) t = .next u ∧ u.reg r = v

/-- A store to the cell of the next opcode is seen by the next fetch, whatever the value: 22 and more is an unknown opcode,
and 0..21 is that opcode, with the operand words that follow it in the extent or a shortfall of them, 0 being a halt. A
store to the instruction's own words does not change the instruction (20_memory.md R79, R80). The memory is in canonical
form and the pc legal, as in State.Inv. -/
def Obligations.StoresAreSeenByTheNextFetch : Prop :=
  ∀ (a b : Operand) (addr v : Word) (s t : State),
    s.mem.wf = true → s.pc.toNat ≤ 32768 → currentInstr s = some (.wmem a b) → resolve a s = .ok addr →
    resolve b s = .ok v → addr.toNat < s.params.memWords.val → step s = .next t →
    t.pc.toNat = s.pc.toNat + 3 ∧ t.cell addr.toNat = v.zeroExtend 16 ∧
    (addr.toNat = t.pc.toNat → 22 ≤ v.toNat → step t = .next (t.faultedWith .unknownOpcode (v.zeroExtend 16))) ∧
    (addr.toNat = t.pc.toNat → v.toNat ≤ 21 → t.params.memWords.val ≤ t.pc.toNat + catalogArity v.toNat →
      step t = .next (t.faultedWith .invalidArguments (v.zeroExtend 16))) ∧
    (addr.toNat = t.pc.toNat → v.toNat ≤ 21 → t.pc.toNat + catalogArity v.toNat < t.params.memWords.val →
      ∃ i : Instr, opcodeWord i = v.zeroExtend 16 ∧
        i.operands = (cellsFrom t (t.pc.toNat + 1) (catalogArity v.toNat)).map Operand.ofWord ∧ step t = exec i t) ∧
    (addr.toNat = t.pc.toNat → v.toNat = 0 → step t = .next { t with status := .halted, pc := t.pc + 1 })

/-! ### Character I/O (48_io.md) -/

/-- `out` (48_io.md R242). That a waiting CORE keeps its state as the answer of the step is the model's choice (log
3). -/
def Obligations.OutAppendsOneCode : Prop :=
  ∀ (a : Operand) (s : State),
    encode (.out a) = [19, a.word] ∧
    (∀ w, a = .invalid w → exec (.out a) s = .next (s.faultedWith .invalidOperand w)) ∧
    (∀ v, resolve a s = .ok v → s.outReady = true →
      exec (.out a) s = .next { s with output := s.output ++ [v], pc := s.pc + 2 }) ∧
    (∀ v, resolve a s = .ok v → s.outReady = false → exec (.out a) s = .next s)

/-- `in` (48_io.md R247). That a waiting CORE keeps its state as the answer of the step is the model's choice (log 3); the
count of consumed characters is the model's field (log 9). -/
def Obligations.InTakesOneCharacter : Prop :=
  ∀ (a : Operand) (s : State),
    encode (.inp a) = [20, a.word] ∧
    (notRegister a → exec (.inp a) s = .next (s.faultedWith .invalidRegister a.word)) ∧
    (∀ r, a = .reg r → s.input = [] → exec (.inp a) s = .next s) ∧
    (∀ r ch rest, a = .reg r → s.input = ch :: rest →
      exec (.inp a) s = .next
        { s with regs := s.regs.set r.val ch, input := rest, consumed := s.consumed + 1, pc := s.pc + 2 })

/-- The output trace grows exactly by the code of each completed transfer, when `out_valid` and `out_ready` are both
asserted (48_io.md R241, R243). -/
def Obligations.OutputGrowsByTransfersOnly : Prop :=
  ∀ s t : State, step s = .next t →
    t.output = if outValid s && s.outReady then s.output ++ [outData s] else s.output

/-- A character is taken exactly when `in_req` and `in_valid` are both asserted, and it is the first of I (48_io.md R245,
R246). -/
def Obligations.InputIsTakenByTransfersOnly : Prop :=
  ∀ s t : State, step s = .next t →
    (t.input = if inReq s && inValid s then s.input.tail else s.input) ∧
    t.consumed + t.input.length = s.consumed + s.input.length

/-- A waiting CORE keeps all its state and stays RUNNING (60_exceptions.md R283, 40_sequencer.md R133). The form of the
wait, a step that answers the same state, is the model's choice (log 3). -/
def Obligations.WaitingKeepsTheState : Prop :=
  ∀ s : State, waiting s = true → s.status = .running ∧ step s = .next s

/-! ### Frames -/

/-- What set, eq, gt, add, mult, mod, and, or, not and rmem leave unchanged: every register but the destination, all of
memory, the stack, the ports, and the status and record but for a fault entry. -/
def Obligations.RegisterWritersFrame : Prop :=
  ∀ (a b c : Operand) (i : Instr),
    i ∈ [Instr.set a b, .eq a b c, .gt a b c, .add a b c, .mult a b c, .mod a b c, .and a b c, .or a b c, .not a b,
      .rmem a b] →
    ∀ s t : State, exec i s = .next t →
      (∀ r, a ≠ .reg r → t.reg r = s.reg r) ∧ sameMemory s t ∧ t.stack = s.stack ∧ samePorts s t ∧ statusFrame s t

/-- What push, pop, call and ret leave unchanged: every register but pop's destination, all of memory, the ports, the
status and record but for a fault entry and ret's halt, and every entry under the top. -/
def Obligations.StackInstructionsFrame : Prop :=
  ∀ (a : Operand) (i : Instr), i ∈ [Instr.push a, .pop a, .call a, .ret] →
    ∀ s t : State, exec i s = .next t →
      (∀ r, i ≠ .pop (.reg r) → t.reg r = s.reg r) ∧ sameMemory s t ∧ samePorts s t ∧
      (statusFrame s t ∨ (i = .ret ∧ s.stack = [] ∧ t = { s with status := .halted })) ∧
      (t.stack = s.stack ∨ (∃ e, t.stack = s.stack ++ [e]) ∨ (∃ e, s.stack = t.stack ++ [e]))

/-- What wmem leaves unchanged: every register, the stack, the ports, the status and record but for a fault entry, and
every byte outside the two bytes of the cell at the resolved address (the place of a cell's bytes: log 1). -/
def Obligations.WmemFrame : Prop :=
  ∀ (a b : Operand) (s t : State), exec (.wmem a b) s = .next t →
    sameRegs s t ∧ t.stack = s.stack ∧ samePorts s t ∧ statusFrame s t ∧ t.params = s.params ∧
    (∀ addr, storeAddress (.wmem a b) s = some addr →
      ∀ k, k ≠ 2 * addr → k ≠ 2 * addr + 1 → t.mem.read k = s.mem.read k) ∧
    (storeAddress (.wmem a b) s = none → ∀ k, t.mem.read k = s.mem.read k)

/-- What halt, noop, jmp, jt and jf leave unchanged: every register, all of memory, the stack, the ports, and the status
and record but for halt's status and a fault entry. -/
def Obligations.ControlInstructionsFrame : Prop :=
  ∀ (a b : Operand) (i : Instr), i ∈ [Instr.halt, .noop, .jmp a, .jt a b, .jf a b] →
    ∀ s t : State, exec i s = .next t →
      sameRegs s t ∧ sameMemory s t ∧ t.stack = s.stack ∧ samePorts s t ∧
      (statusFrame s t ∨ (i = .halt ∧ t = { s with status := .halted, pc := t.pc }))

/-- What out and in leave unchanged: every register but in's destination, all of memory, the stack, the status and record
but for a fault entry, the pins, the input for out and the output for in. -/
def Obligations.PortInstructionsFrame : Prop :=
  ∀ (a : Operand) (s t : State),
    (exec (.out a) s = .next t → sameRegs s t ∧ sameMemory s t ∧ t.stack = s.stack ∧ statusFrame s t ∧
      t.input = s.input ∧ t.consumed = s.consumed ∧ t.outReady = s.outReady ∧ t.stopReq = s.stopReq) ∧
    (exec (.inp a) s = .next t → (∀ r, a ≠ .reg r → t.reg r = s.reg r) ∧ sameMemory s t ∧ t.stack = s.stack ∧
      statusFrame s t ∧ t.output = s.output ∧ t.outReady = s.outReady ∧ t.stopReq = s.stopReq)

/-! ### Rules of the whole machine -/

/-- The twelve register-writing instructions write only the register their operand a names, no other instruction writes
one, and every register can be written and then read (10_state.md R32). -/
def Obligations.OnlyNamedDestinationsAreWritten : Prop :=
  (∀ (i : Instr) (s t : State), exec i s = .next t → ∀ r, destOperand i ≠ some (.reg r) → t.reg r = s.reg r) ∧
  (∀ (r : Fin 8) (v : Word) (s : State), ∃ t, exec (.set (.reg r) (.lit v)) s = .next t ∧ t.reg r = v ∧
    resolve (.reg r) t = .ok v)

/-- Only push and call add an entry, only pop and ret remove one, one at a time, and no other instruction changes the
stack (10_state.md R43). -/
def Obligations.OnlyFourInstructionsChangeTheStack : Prop :=
  ∀ (i : Instr) (s t : State), exec i s = .next t →
    t.stack = s.stack ∨
    (∃ a e, (i = .push a ∨ i = .call a) ∧ t.stack = s.stack ++ [e]) ∨
    (∃ a e, (i = .pop a ∨ i = .ret) ∧ s.stack = t.stack ++ [e])

/-- wmem is the only writer of memory, it writes one cell inside the extent and no other cell, and that cell then has bit 15
clear (20_memory.md R69, R71). The memory is in canonical form, as in State.Inv. -/
def Obligations.OnlyWmemWritesMemory : Prop :=
  ∀ (i : Instr) (s t : State), s.mem.wf = true → exec i s = .next t →
    t.mem = s.mem ∨
    ∃ a b addr v, i = .wmem a b ∧ resolve a s = .ok addr ∧ resolve b s = .ok v ∧
      addr.toNat < s.params.memWords.val ∧
      t.cell addr.toNat = v.zeroExtend 16 ∧ (t.cell addr.toNat).extractLsb' 15 1 = 0 ∧
      ∀ k, k ≠ addr.toNat → t.cell k = s.cell k

/-- How the status of a running CORE changes in a step (10_state.md R45). -/
def Obligations.StatusChangesOnlyAsListed : Prop :=
  ∀ s t : State, s.status = .running → step s = .next t →
    (t.status = .halted ↔ currentInstr s = some .halt ∨ (currentInstr s = some .ret ∧ s.stack = [])) ∧
    (t.status = .stopped ↔ s.params.hostStop = true ∧ s.stopReq = true) ∧
    (t.status = .faulted → ∃ k v, t = s.faultedWith k v)

/-- The numbers of the statuses and of the fault kinds (10_state.md R45, 60_exceptions.md R261). -/
def Obligations.StatusAndCauseCodes : Prop :=
  [Status.running, .halted, .faulted, .stopped].map (fun x => x.code.toNat) = [0, 1, 2, 3] ∧
  [FaultKind.invalidOperand, .invalidRegister, .invalidArguments, .invalidMemoryAccess, .stackUnderflow,
    .unknownOpcode, .divideByZero, .wordOutOfRange, .stackOverflow].map (fun k => k.code.toNat) =
    [1, 2, 3, 4, 5, 6, 7, 8, 9] ∧
  (∀ k k' : FaultKind, k.code = k'.code → k = k')

/-! ### The invariant -/

/-- The state after reset satisfies the invariant. Its image is the empty one, the model's choice (log 7). -/
def Obligations.ResetStateIsLegal : Prop := State.reset.Inv

/-- Every step keeps the invariant: memory canonical and inside the extent, cells above 32767 only as the image loaded
them, pc at most 32768, stack entries at most 32768 and a finite stack within its depth, the fault record empty unless
FAULTED. -/
def Obligations.StepKeepsLegalStates : Prop :=
  ∀ s t : State, s.Inv → step s = .next t → t.Inv

/-- Every host event keeps the invariant. -/
def Obligations.HostEventsKeepLegalStates : Prop :=
  ∀ (e : HostEvent) (s t : State), s.Inv → deliver e s = .next t → t.Inv

/-- Every state reached from reset by steps and host events, image loads among them, satisfies the invariant. -/
def Obligations.ReachableStatesAreLegal : Prop := ∀ s : State, Reachable State.reset s → s.Inv

/-! ### Reset and load (70_reset_and_hazards.md, 20_memory.md) -/

/-- Reset, whatever the CORE held before (70_reset_and_hazards.md R290). That the characters not yet taken stay offered is
the model's reading (log 13). -/
def Obligations.ResetGivesTheConstructionState : Prop :=
  ∀ s : State, ∃ t, deliver .reset s = .next t ∧
    (∀ r, t.reg r = 0) ∧ t.pc = 0 ∧ t.stack = [] ∧ t.mem = s.params.image ∧ t.params = s.params ∧
    t.status = .running ∧ t.faultCode = 0 ∧ t.faultPc = 0 ∧ t.faultInfo = 0 ∧ t.output = [] ∧ t.input = s.input

/-- An image of 2k bytes gives MEM_WORDS = k and each cell its two bytes, the low one first (20_memory.md R63). That a load
is a host event which also resets is the model's choice (log 7, log 13). -/
def Obligations.LoadPlacesLittleEndianWords : Prop :=
  ∀ (s : State) (bytes : List Byte) (k : Nat), bytes.length = 2 * k → k ≤ 32768 →
    ∃ t, deliver (.load bytes) s = .next t ∧ t.params.memWords.val = k ∧ t.pc = 0 ∧ t.status = .running ∧
      ∀ i, i < k → (t.cell i).toNat = (bytes.getD (2 * i) 0).toNat + 256 * (bytes.getD (2 * i + 1) 0).toNat

/-- An image of odd byte length or of more than 32768 words is refused, and an empty one is accepted and faults at its
first fetch (20_memory.md R64, R65). That a refused load is a refusal by name is the model's choice (log 14). -/
def Obligations.LoadRefusesBadImages : Prop :=
  (∀ (s : State) (bytes : List Byte), bytes.length % 2 = 1 → deliver (.load bytes) s = .refused .imageOddLength) ∧
  (∀ (s : State) (bytes : List Byte), bytes.length % 2 = 0 → 32768 < bytes.length / 2 →
    deliver (.load bytes) s = .refused .imageTooLong) ∧
  (∀ s : State, s.stopReq = false → ∃ t, deliver (.load []) s = .next t ∧
    step t = .next (t.faultedWith .invalidMemoryAccess 0))
end

