-- ==== Sys2Proof/Laws/Decode.lean ====
section
/-! SUPPORT. The small laws of operand words, byte strings and the encoder. -/

namespace Sys2Proof

/-- No class loses the raw operand word. -/
theorem Operand.word_ofWord (w : MemWord) : (Operand.ofWord w).word = w := by
  apply BitVec.eq_of_toNat_eq
  have hw := w.isLt
  simp only [Operand.ofWord]
  split
  · simp only [Operand.word, zext16, BitVec.toNat_setWidth, BitVec.toNat_ofNat]; omega
  · split
    · simp only [Operand.word, BitVec.toNat_ofNat]; omega
    · rfl

/-- A well-formed operand is the class of its word. -/
theorem Operand.ofWord_word {o : Operand} (h : o.wf = true) : Operand.ofWord o.word = o := by
  cases o with
  | lit v =>
    have hv := v.isLt
    have e : (Operand.lit v).word.toNat = v.toNat := by
      simp only [Operand.word, zext16, BitVec.toNat_setWidth]; omega
    simp only [Operand.ofWord, e, if_pos (show v.toNat ≤ 32767 by omega), Operand.lit.injEq]
    simp
  | reg i =>
    have hi := i.isLt
    have e : (Operand.reg i).word.toNat = 32768 + i.val := by
      simp only [Operand.word, BitVec.toNat_ofNat]; omega
    simp only [Operand.ofWord, e]
    rw [if_neg (by omega), dif_pos (show 32768 + i.val - 32768 < 8 by omega)]
    simp
  | invalid w =>
    have h : 32776 ≤ w.toNat := of_decide_eq_true h
    change Operand.ofWord w = _
    unfold Operand.ofWord
    rw [if_neg (by omega), dif_neg (by omega)]

/-- The class of a word is well-formed. -/
theorem Operand.wf_ofWord (w : MemWord) : (Operand.ofWord w).wf = true := by
  simp only [Operand.ofWord]
  split
  · rfl
  · split
    · rfl
    · exact decide_eq_true (by omega)

@[simp] theorem encode_length (i : Instr) : (encode i).length = i.length := by
  simp [encode, Instr.length, Instr.arity, Nat.add_comm]

@[simp] theorem bytesOfWords_length (ws : List MemWord) : (bytesOfWords ws).length = 2 * ws.length := by
  induction ws with
  | nil => rfl
  | cons w ws ih => simp only [bytesOfWords, List.length_cons, ih]; omega

end Sys2Proof
end

