-- ==== Sys2Proof/Laws/Memory.lean ====
section
/-! SUPPORT. The laws of memory: read after write, and that every operation keeps the canonical form and the extent. -/

namespace Sys2Proof.Machine

/-! ### Bytes -/

theorem Memory.read_write_same (m : Memory) (a : Nat) (b : Byte) (h : Memory.wf m = true) :
    Memory.read (Memory.write m a b) a = b := by
  suffices H : ∀ lo, Memory.wfFrom lo m = true → Memory.read (Memory.write m a b) a = b from H 0 h
  have below : ∀ (m : Memory) lo, Memory.wfFrom lo m = true → a < lo → Memory.read m a = Memory.unlisted := by
    intro m
    induction m with
    | nil => intros; rfl
    | cons kv m ih =>
      obtain ⟨k, v⟩ := kv
      intro lo hw hlt
      simp only [Memory.wfFrom, Bool.and_eq_true, decide_eq_true_eq] at hw
      simp only [Memory.read]
      rw [if_neg (by omega)]
      exact ih _ hw.2 (by omega)
  clear h
  induction m with
  | nil => intro lo _; by_cases hb : b = Memory.unlisted <;> simp [Memory.write, Memory.read, hb]
  | cons kv m ih =>
    obtain ⟨k, v⟩ := kv
    intro lo hw
    have hw' := hw
    simp only [Memory.wfFrom, Bool.and_eq_true, decide_eq_true_eq] at hw'
    simp only [Memory.write]
    split
    · split
      · rename_i hlt hb
        simp only [Memory.read]
        rw [if_neg (by omega), below m _ hw'.2 (by omega), hb]
      · simp [Memory.read]
    · split
      · split
        · rename_i hk hb
          rw [below m _ hw'.2 (by omega), hb]
        · simp [Memory.read]
      · simp only [Memory.read]
        rw [if_neg (by omega)]
        exact ih _ hw'.2

theorem Memory.read_write_other (m : Memory) (a k : Nat) (b : Byte) (h : k ≠ a) :
    Memory.read (Memory.write m a b) k = Memory.read m k := by
  induction m with
  | nil => by_cases hb : b = Memory.unlisted <;> simp [Memory.write, Memory.read, hb, Ne.symm h]
  | cons kv m ih =>
    obtain ⟨k', v⟩ := kv
    simp only [Memory.write]
    split
    · split
      · rfl
      · simp [Memory.read, Ne.symm h]
    · split
      · rename_i hk
        split <;> simp [Memory.read, ← hk, Ne.symm h]
      · simp only [Memory.read, ih]

theorem Memory.wfFrom_mono {m : Memory} {lo lo' : Nat} (hle : lo' ≤ lo) (h : Memory.wfFrom lo m = true) :
    Memory.wfFrom lo' m = true := by
  cases m with
  | nil => rfl
  | cons kv m =>
    simp only [Memory.wfFrom, Bool.and_eq_true, decide_eq_true_eq] at h ⊢
    exact ⟨⟨by omega, h.1.2⟩, h.2⟩

theorem Memory.wfFrom_write (m : Memory) (a : Nat) (b : Byte) :
    ∀ lo, lo ≤ a → Memory.wfFrom lo m = true → Memory.wfFrom lo (Memory.write m a b) = true := by
  induction m with
  | nil => intro lo hlo _; by_cases hb : b = Memory.unlisted <;> simp [Memory.write, Memory.wfFrom, hb, hlo]
  | cons kv m ih =>
    obtain ⟨k, v⟩ := kv
    intro lo hlo hw
    have hw' := hw
    simp only [Memory.wfFrom, Bool.and_eq_true, decide_eq_true_eq] at hw'
    simp only [Memory.write]
    split
    · split
      · exact hw
      · rename_i hlt hb
        simp only [Memory.wfFrom, Bool.and_eq_true, decide_eq_true_eq]
        exact ⟨⟨hlo, hb⟩, ⟨by omega, hw'.1.2⟩, hw'.2⟩
    · split
      · rename_i hk
        split
        · exact Memory.wfFrom_mono (by omega) hw'.2
        · rename_i hb
          simp only [Memory.wfFrom, Bool.and_eq_true, decide_eq_true_eq]
          exact ⟨⟨hlo, hb⟩, by rw [hk]; exact hw'.2⟩
      · simp only [Memory.wfFrom, Bool.and_eq_true, decide_eq_true_eq]
        exact ⟨hw'.1, ih _ (by omega) hw'.2⟩

/-- Every write keeps the canonical form. -/
theorem Memory.wf_write (m : Memory) (a : Nat) (b : Byte) (h : Memory.wf m = true) :
    Memory.wf (Memory.write m a b) = true := Memory.wfFrom_write m a b 0 (Nat.zero_le _) h

@[simp] theorem Memory.below_nil (n : Nat) : Memory.below n [] = true := rfl

@[simp] theorem Memory.below_cons (n k : Nat) (v : Byte) (m : Memory) :
    Memory.below n ((k, v) :: m) = (decide (k < n) && Memory.below n m) := rfl

/-- Every write inside the extent keeps memory inside the extent. -/
theorem Memory.below_write (m : Memory) (n a : Nat) (b : Byte) (ha : a < n) (h : Memory.below n m = true) :
    Memory.below n (Memory.write m a b) = true := by
  induction m with
  | nil => by_cases hb : b = Memory.unlisted <;> simp [Memory.write, hb, ha]
  | cons kv m ih =>
    obtain ⟨k, v⟩ := kv
    rw [Memory.below_cons, Bool.and_eq_true, decide_eq_true_eq] at h
    simp only [Memory.write]
    split
    · split <;> simp [h, ha]
    · split
      · split <;> simp [h, ha]
      · simp [h.1, ih h.2]

/-! ### Words -/

theorem wordOfBytes_bytes (w : MemWord) : wordOfBytes (lowByte w) (highByte w) = w := by
  apply BitVec.eq_of_getLsbD_eq
  intro i hi
  simp only [wordOfBytes, lowByte, highByte, BitVec.getLsbD_append, BitVec.getLsbD_setWidth, BitVec.getLsbD_ushiftRight]
  by_cases h : i < 8
  · simp [h]
  · have : 8 + (i - 8) = i := by omega
    simp [h, this, show i - 8 < 8 by omega]

theorem wordOfBytes_toNat (lo hi : Byte) : (wordOfBytes lo hi).toNat = lo.toNat + 256 * hi.toNat := by
  simp only [wordOfBytes, BitVec.toNat_append]
  rw [Nat.shiftLeft_eq, Nat.mul_comm, ← Nat.two_pow_add_eq_or_of_lt lo.isLt]
  omega

theorem lowByte_wordOfBytes (lo hi : Byte) : lowByte (wordOfBytes lo hi) = lo := by
  apply BitVec.eq_of_toNat_eq
  have h := lo.isLt
  simp only [lowByte, BitVec.toNat_setWidth, wordOfBytes_toNat]
  omega

theorem highByte_wordOfBytes (lo hi : Byte) : highByte (wordOfBytes lo hi) = hi := by
  apply BitVec.eq_of_toNat_eq
  have h := lo.isLt
  have h' := hi.isLt
  simp only [highByte, BitVec.toNat_setWidth, BitVec.toNat_ushiftRight, wordOfBytes_toNat, Nat.shiftRight_eq_div_pow]
  omega

theorem Memory.readWord_writeWord_same (m : Memory) (a : Nat) (w : MemWord) (h : Memory.wf m = true) :
    (Memory.writeWord m a w).readWord a = w := by
  simp only [Memory.readWord, Memory.writeWord]
  rw [Memory.read_write_other _ _ _ _ (by omega), Memory.read_write_same _ _ _ h,
    Memory.read_write_same _ _ _ (Memory.wf_write _ _ _ h), wordOfBytes_bytes]

/-- A store leaves every byte outside its two bytes alone. -/
theorem Memory.read_writeWord_other (m : Memory) (a k : Nat) (w : MemWord) (h : k ≠ 2 * a) (h' : k ≠ 2 * a + 1) :
    (Memory.writeWord m a w).read k = m.read k := by
  simp only [Memory.writeWord]
  rw [Memory.read_write_other _ _ _ _ h', Memory.read_write_other _ _ _ _ h]

theorem Memory.readWord_writeWord_other (m : Memory) (a k : Nat) (w : MemWord) (h : k ≠ a) :
    (Memory.writeWord m a w).readWord k = m.readWord k := by
  simp only [Memory.readWord]
  rw [Memory.read_writeWord_other _ _ _ _ (by omega) (by omega),
    Memory.read_writeWord_other _ _ _ _ (by omega) (by omega)]

theorem Memory.wf_writeWord (m : Memory) (a : Nat) (w : MemWord) (h : Memory.wf m = true) :
    Memory.wf (Memory.writeWord m a w) = true := Memory.wf_write _ _ _ (Memory.wf_write _ _ _ h)

theorem Memory.below_writeWord (m : Memory) (n a : Nat) (w : MemWord) (ha : a < n)
    (h : Memory.below (2 * n) m = true) : Memory.below (2 * n) (Memory.writeWord m a w) = true :=
  Memory.below_write _ _ _ _ (by omega) (Memory.below_write _ _ _ _ (by omega) h)

/-! ### The image -/

theorem Memory.wfFrom_ofBytes (bs : List Byte) : ∀ k, Memory.wfFrom k (Memory.ofBytes k bs) = true := by
  induction bs with
  | nil => intro k; rfl
  | cons b bs ih =>
    intro k
    simp only [Memory.ofBytes]
    split
    · exact Memory.wfFrom_mono (Nat.le_succ k) (ih (k + 1))
    · rename_i hb
      simp [Memory.wfFrom, hb, ih]

theorem Memory.wf_ofBytes (bs : List Byte) : Memory.wf (Memory.ofBytes 0 bs) = true := Memory.wfFrom_ofBytes bs 0

theorem Memory.below_ofBytes (bs : List Byte) : ∀ k n, k + bs.length ≤ n → Memory.below n (Memory.ofBytes k bs) = true := by
  induction bs with
  | nil => intros; rfl
  | cons b bs ih =>
    intro k n hn
    simp only [List.length_cons] at hn
    have := ih (k + 1) n (by omega)
    simp only [Memory.ofBytes]
    split
    · exact this
    · rw [Memory.below_cons, this, Bool.and_true, decide_eq_true_eq]
      omega

/-- Byte j of the image stands at byte address k + j. -/
theorem Memory.read_ofBytes (bs : List Byte) :
    ∀ k j, Memory.read (Memory.ofBytes k bs) (k + j) = bs.getD j Memory.unlisted := by
  induction bs with
  | nil => intros; simp [Memory.ofBytes, Memory.read]
  | cons b bs ih =>
    intro k j
    have low : ∀ (bs : List Byte) k lo, lo < k → Memory.read (Memory.ofBytes k bs) lo = Memory.unlisted := by
      intro bs
      induction bs with
      | nil => intros; rfl
      | cons b bs ih =>
        intro k lo hlo
        simp only [Memory.ofBytes]
        split
        · exact ih _ _ (by omega)
        · simp only [Memory.read]
          rw [if_neg (by omega)]
          exact ih _ _ (by omega)
    cases j with
    | zero =>
      simp only [Memory.ofBytes]
      split
      · rename_i hb
        simp [low bs (k + 1) k (by omega), hb]
      · simp [Memory.read]
    | succ j =>
      have := ih (k + 1) j
      rw [show k + (j + 1) = k + 1 + j by omega]
      simp only [Memory.ofBytes]
      split
      · simpa using this
      · simp only [Memory.read]
        rw [if_neg (by omega)]
        simpa using this

end Sys2Proof.Machine
end

