-- ==== Sys2Proof/Laws/State.lean ====
section
/-! SUPPORT. One lemma per field per update of State, each true by unfolding, so that no later proof unfolds a record
update. -/

namespace Sys2Proof.Machine

/-! ### setReg -/

@[simp] theorem State.setReg_regs (s : State) (i : Fin 8) (v : Word) : (s.setReg i v).regs = s.regs.set i.val v := rfl
@[simp] theorem State.setReg_pc (s : State) (i : Fin 8) (v : Word) : (s.setReg i v).pc = s.pc := rfl
@[simp] theorem State.setReg_mem (s : State) (i : Fin 8) (v : Word) : (s.setReg i v).mem = s.mem := rfl
@[simp] theorem State.setReg_stack (s : State) (i : Fin 8) (v : Word) : (s.setReg i v).stack = s.stack := rfl
@[simp] theorem State.setReg_status (s : State) (i : Fin 8) (v : Word) : (s.setReg i v).status = s.status := rfl
@[simp] theorem State.setReg_faultCode (s : State) (i : Fin 8) (v : Word) : (s.setReg i v).faultCode = s.faultCode := rfl
@[simp] theorem State.setReg_faultPc (s : State) (i : Fin 8) (v : Word) : (s.setReg i v).faultPc = s.faultPc := rfl
@[simp] theorem State.setReg_faultInfo (s : State) (i : Fin 8) (v : Word) : (s.setReg i v).faultInfo = s.faultInfo := rfl
@[simp] theorem State.setReg_output (s : State) (i : Fin 8) (v : Word) : (s.setReg i v).output = s.output := rfl
@[simp] theorem State.setReg_input (s : State) (i : Fin 8) (v : Word) : (s.setReg i v).input = s.input := rfl
@[simp] theorem State.setReg_consumed (s : State) (i : Fin 8) (v : Word) : (s.setReg i v).consumed = s.consumed := rfl
@[simp] theorem State.setReg_outReady (s : State) (i : Fin 8) (v : Word) : (s.setReg i v).outReady = s.outReady := rfl
@[simp] theorem State.setReg_stopReq (s : State) (i : Fin 8) (v : Word) : (s.setReg i v).stopReq = s.stopReq := rfl
@[simp] theorem State.setReg_params (s : State) (i : Fin 8) (v : Word) : (s.setReg i v).params = s.params := rfl

/-! ### advance -/

@[simp] theorem State.advance_regs (s : State) (n : Nat) : (s.advance n).regs = s.regs := rfl
@[simp] theorem State.advance_pc (s : State) (n : Nat) : (s.advance n).pc = s.pc + BitVec.ofNat 16 (1 + n) := rfl
@[simp] theorem State.advance_mem (s : State) (n : Nat) : (s.advance n).mem = s.mem := rfl
@[simp] theorem State.advance_stack (s : State) (n : Nat) : (s.advance n).stack = s.stack := rfl
@[simp] theorem State.advance_status (s : State) (n : Nat) : (s.advance n).status = s.status := rfl
@[simp] theorem State.advance_faultCode (s : State) (n : Nat) : (s.advance n).faultCode = s.faultCode := rfl
@[simp] theorem State.advance_faultPc (s : State) (n : Nat) : (s.advance n).faultPc = s.faultPc := rfl
@[simp] theorem State.advance_faultInfo (s : State) (n : Nat) : (s.advance n).faultInfo = s.faultInfo := rfl
@[simp] theorem State.advance_output (s : State) (n : Nat) : (s.advance n).output = s.output := rfl
@[simp] theorem State.advance_input (s : State) (n : Nat) : (s.advance n).input = s.input := rfl
@[simp] theorem State.advance_consumed (s : State) (n : Nat) : (s.advance n).consumed = s.consumed := rfl
@[simp] theorem State.advance_outReady (s : State) (n : Nat) : (s.advance n).outReady = s.outReady := rfl
@[simp] theorem State.advance_stopReq (s : State) (n : Nat) : (s.advance n).stopReq = s.stopReq := rfl
@[simp] theorem State.advance_params (s : State) (n : Nat) : (s.advance n).params = s.params := rfl

/-! ### jump -/

@[simp] theorem State.jump_regs (s : State) (t : Word) : (s.jump t).regs = s.regs := rfl
@[simp] theorem State.jump_pc (s : State) (t : Word) : (s.jump t).pc = zext16 t := rfl
@[simp] theorem State.jump_mem (s : State) (t : Word) : (s.jump t).mem = s.mem := rfl
@[simp] theorem State.jump_stack (s : State) (t : Word) : (s.jump t).stack = s.stack := rfl
@[simp] theorem State.jump_status (s : State) (t : Word) : (s.jump t).status = s.status := rfl
@[simp] theorem State.jump_faultCode (s : State) (t : Word) : (s.jump t).faultCode = s.faultCode := rfl
@[simp] theorem State.jump_faultPc (s : State) (t : Word) : (s.jump t).faultPc = s.faultPc := rfl
@[simp] theorem State.jump_faultInfo (s : State) (t : Word) : (s.jump t).faultInfo = s.faultInfo := rfl
@[simp] theorem State.jump_output (s : State) (t : Word) : (s.jump t).output = s.output := rfl
@[simp] theorem State.jump_input (s : State) (t : Word) : (s.jump t).input = s.input := rfl
@[simp] theorem State.jump_consumed (s : State) (t : Word) : (s.jump t).consumed = s.consumed := rfl
@[simp] theorem State.jump_outReady (s : State) (t : Word) : (s.jump t).outReady = s.outReady := rfl
@[simp] theorem State.jump_stopReq (s : State) (t : Word) : (s.jump t).stopReq = s.stopReq := rfl
@[simp] theorem State.jump_params (s : State) (t : Word) : (s.jump t).params = s.params := rfl

/-! ### storeCell -/

@[simp] theorem State.storeCell_regs (s : State) (a : Nat) (w : MemWord) : (s.storeCell a w).regs = s.regs := rfl
@[simp] theorem State.storeCell_pc (s : State) (a : Nat) (w : MemWord) : (s.storeCell a w).pc = s.pc := rfl
@[simp] theorem State.storeCell_mem (s : State) (a : Nat) (w : MemWord) : (s.storeCell a w).mem = s.mem.writeWord a w := rfl
@[simp] theorem State.storeCell_stack (s : State) (a : Nat) (w : MemWord) : (s.storeCell a w).stack = s.stack := rfl
@[simp] theorem State.storeCell_status (s : State) (a : Nat) (w : MemWord) : (s.storeCell a w).status = s.status := rfl
@[simp] theorem State.storeCell_faultCode (s : State) (a : Nat) (w : MemWord) : (s.storeCell a w).faultCode = s.faultCode := rfl
@[simp] theorem State.storeCell_faultPc (s : State) (a : Nat) (w : MemWord) : (s.storeCell a w).faultPc = s.faultPc := rfl
@[simp] theorem State.storeCell_faultInfo (s : State) (a : Nat) (w : MemWord) : (s.storeCell a w).faultInfo = s.faultInfo := rfl
@[simp] theorem State.storeCell_output (s : State) (a : Nat) (w : MemWord) : (s.storeCell a w).output = s.output := rfl
@[simp] theorem State.storeCell_input (s : State) (a : Nat) (w : MemWord) : (s.storeCell a w).input = s.input := rfl
@[simp] theorem State.storeCell_consumed (s : State) (a : Nat) (w : MemWord) : (s.storeCell a w).consumed = s.consumed := rfl
@[simp] theorem State.storeCell_outReady (s : State) (a : Nat) (w : MemWord) : (s.storeCell a w).outReady = s.outReady := rfl
@[simp] theorem State.storeCell_stopReq (s : State) (a : Nat) (w : MemWord) : (s.storeCell a w).stopReq = s.stopReq := rfl
@[simp] theorem State.storeCell_params (s : State) (a : Nat) (w : MemWord) : (s.storeCell a w).params = s.params := rfl

/-! ### dropTop -/

@[simp] theorem State.dropTop_regs (s : State) : (s.dropTop).regs = s.regs := rfl
@[simp] theorem State.dropTop_pc (s : State) : (s.dropTop).pc = s.pc := rfl
@[simp] theorem State.dropTop_mem (s : State) : (s.dropTop).mem = s.mem := rfl
@[simp] theorem State.dropTop_stack (s : State) : (s.dropTop).stack = s.stack.dropLast := rfl
@[simp] theorem State.dropTop_status (s : State) : (s.dropTop).status = s.status := rfl
@[simp] theorem State.dropTop_faultCode (s : State) : (s.dropTop).faultCode = s.faultCode := rfl
@[simp] theorem State.dropTop_faultPc (s : State) : (s.dropTop).faultPc = s.faultPc := rfl
@[simp] theorem State.dropTop_faultInfo (s : State) : (s.dropTop).faultInfo = s.faultInfo := rfl
@[simp] theorem State.dropTop_output (s : State) : (s.dropTop).output = s.output := rfl
@[simp] theorem State.dropTop_input (s : State) : (s.dropTop).input = s.input := rfl
@[simp] theorem State.dropTop_consumed (s : State) : (s.dropTop).consumed = s.consumed := rfl
@[simp] theorem State.dropTop_outReady (s : State) : (s.dropTop).outReady = s.outReady := rfl
@[simp] theorem State.dropTop_stopReq (s : State) : (s.dropTop).stopReq = s.stopReq := rfl
@[simp] theorem State.dropTop_params (s : State) : (s.dropTop).params = s.params := rfl

/-! ### outWrite -/

@[simp] theorem State.outWrite_regs (s : State) (v : Word) : (s.outWrite v).regs = s.regs := rfl
@[simp] theorem State.outWrite_pc (s : State) (v : Word) : (s.outWrite v).pc = s.pc := rfl
@[simp] theorem State.outWrite_mem (s : State) (v : Word) : (s.outWrite v).mem = s.mem := rfl
@[simp] theorem State.outWrite_stack (s : State) (v : Word) : (s.outWrite v).stack = s.stack := rfl
@[simp] theorem State.outWrite_status (s : State) (v : Word) : (s.outWrite v).status = s.status := rfl
@[simp] theorem State.outWrite_faultCode (s : State) (v : Word) : (s.outWrite v).faultCode = s.faultCode := rfl
@[simp] theorem State.outWrite_faultPc (s : State) (v : Word) : (s.outWrite v).faultPc = s.faultPc := rfl
@[simp] theorem State.outWrite_faultInfo (s : State) (v : Word) : (s.outWrite v).faultInfo = s.faultInfo := rfl
@[simp] theorem State.outWrite_output (s : State) (v : Word) : (s.outWrite v).output = s.output ++ [v] := rfl
@[simp] theorem State.outWrite_input (s : State) (v : Word) : (s.outWrite v).input = s.input := rfl
@[simp] theorem State.outWrite_consumed (s : State) (v : Word) : (s.outWrite v).consumed = s.consumed := rfl
@[simp] theorem State.outWrite_outReady (s : State) (v : Word) : (s.outWrite v).outReady = s.outReady := rfl
@[simp] theorem State.outWrite_stopReq (s : State) (v : Word) : (s.outWrite v).stopReq = s.stopReq := rfl
@[simp] theorem State.outWrite_params (s : State) (v : Word) : (s.outWrite v).params = s.params := rfl

/-! ### haltCore -/

@[simp] theorem State.haltCore_regs (s : State) : (s.haltCore).regs = s.regs := rfl
@[simp] theorem State.haltCore_pc (s : State) : (s.haltCore).pc = s.pc := rfl
@[simp] theorem State.haltCore_mem (s : State) : (s.haltCore).mem = s.mem := rfl
@[simp] theorem State.haltCore_stack (s : State) : (s.haltCore).stack = s.stack := rfl
@[simp] theorem State.haltCore_status (s : State) : (s.haltCore).status = .halted := rfl
@[simp] theorem State.haltCore_faultCode (s : State) : (s.haltCore).faultCode = s.faultCode := rfl
@[simp] theorem State.haltCore_faultPc (s : State) : (s.haltCore).faultPc = s.faultPc := rfl
@[simp] theorem State.haltCore_faultInfo (s : State) : (s.haltCore).faultInfo = s.faultInfo := rfl
@[simp] theorem State.haltCore_output (s : State) : (s.haltCore).output = s.output := rfl
@[simp] theorem State.haltCore_input (s : State) : (s.haltCore).input = s.input := rfl
@[simp] theorem State.haltCore_consumed (s : State) : (s.haltCore).consumed = s.consumed := rfl
@[simp] theorem State.haltCore_outReady (s : State) : (s.haltCore).outReady = s.outReady := rfl
@[simp] theorem State.haltCore_stopReq (s : State) : (s.haltCore).stopReq = s.stopReq := rfl
@[simp] theorem State.haltCore_params (s : State) : (s.haltCore).params = s.params := rfl

/-! ### takeFault -/

@[simp] theorem State.takeFault_regs (s : State) (r : Raise) : (s.takeFault r).regs = s.regs := rfl
@[simp] theorem State.takeFault_pc (s : State) (r : Raise) : (s.takeFault r).pc = s.pc := rfl
@[simp] theorem State.takeFault_mem (s : State) (r : Raise) : (s.takeFault r).mem = s.mem := rfl
@[simp] theorem State.takeFault_stack (s : State) (r : Raise) : (s.takeFault r).stack = s.stack := rfl
@[simp] theorem State.takeFault_status (s : State) (r : Raise) : (s.takeFault r).status = .faulted := rfl
@[simp] theorem State.takeFault_faultCode (s : State) (r : Raise) : (s.takeFault r).faultCode = r.kind.code := rfl
@[simp] theorem State.takeFault_faultPc (s : State) (r : Raise) : (s.takeFault r).faultPc = s.pc := rfl
@[simp] theorem State.takeFault_faultInfo (s : State) (r : Raise) : (s.takeFault r).faultInfo = r.info := rfl
@[simp] theorem State.takeFault_output (s : State) (r : Raise) : (s.takeFault r).output = s.output := rfl
@[simp] theorem State.takeFault_input (s : State) (r : Raise) : (s.takeFault r).input = s.input := rfl
@[simp] theorem State.takeFault_consumed (s : State) (r : Raise) : (s.takeFault r).consumed = s.consumed := rfl
@[simp] theorem State.takeFault_outReady (s : State) (r : Raise) : (s.takeFault r).outReady = s.outReady := rfl
@[simp] theorem State.takeFault_stopReq (s : State) (r : Raise) : (s.takeFault r).stopReq = s.stopReq := rfl
@[simp] theorem State.takeFault_params (s : State) (r : Raise) : (s.takeFault r).params = s.params := rfl

/-! ### hold -/

@[simp] theorem State.hold_regs (s : State) : (s.hold).regs = s.regs := rfl
@[simp] theorem State.hold_pc (s : State) : (s.hold).pc = s.pc := rfl
@[simp] theorem State.hold_mem (s : State) : (s.hold).mem = s.mem := rfl
@[simp] theorem State.hold_stack (s : State) : (s.hold).stack = s.stack := rfl
@[simp] theorem State.hold_status (s : State) : (s.hold).status = s.status := rfl
@[simp] theorem State.hold_faultCode (s : State) : (s.hold).faultCode = s.faultCode := rfl
@[simp] theorem State.hold_faultPc (s : State) : (s.hold).faultPc = s.faultPc := rfl
@[simp] theorem State.hold_faultInfo (s : State) : (s.hold).faultInfo = s.faultInfo := rfl
@[simp] theorem State.hold_output (s : State) : (s.hold).output = s.output := rfl
@[simp] theorem State.hold_input (s : State) : (s.hold).input = s.input := rfl
@[simp] theorem State.hold_consumed (s : State) : (s.hold).consumed = s.consumed := rfl
@[simp] theorem State.hold_outReady (s : State) : (s.hold).outReady = s.outReady := rfl
@[simp] theorem State.hold_stopReq (s : State) : (s.hold).stopReq = s.stopReq := rfl
@[simp] theorem State.hold_params (s : State) : (s.hold).params = s.params := rfl

/-! ### applyReset -/

@[simp] theorem State.applyReset_regs (s : State) : (s.applyReset).regs = Vector.replicate 8 0 := rfl
@[simp] theorem State.applyReset_pc (s : State) : (s.applyReset).pc = 0 := rfl
@[simp] theorem State.applyReset_mem (s : State) : (s.applyReset).mem = s.params.image := rfl
@[simp] theorem State.applyReset_stack (s : State) : (s.applyReset).stack = [] := rfl
@[simp] theorem State.applyReset_status (s : State) : (s.applyReset).status = .running := rfl
@[simp] theorem State.applyReset_faultCode (s : State) : (s.applyReset).faultCode = 0 := rfl
@[simp] theorem State.applyReset_faultPc (s : State) : (s.applyReset).faultPc = 0 := rfl
@[simp] theorem State.applyReset_faultInfo (s : State) : (s.applyReset).faultInfo = 0 := rfl
@[simp] theorem State.applyReset_output (s : State) : (s.applyReset).output = [] := rfl
@[simp] theorem State.applyReset_input (s : State) : (s.applyReset).input = s.input := rfl
@[simp] theorem State.applyReset_consumed (s : State) : (s.applyReset).consumed = 0 := rfl
@[simp] theorem State.applyReset_outReady (s : State) : (s.applyReset).outReady = s.outReady := rfl
@[simp] theorem State.applyReset_stopReq (s : State) : (s.applyReset).stopReq = s.stopReq := rfl
@[simp] theorem State.applyReset_params (s : State) : (s.applyReset).params = s.params := rfl

/-! ### Registers through `State.reg` -/

@[simp] theorem State.reg_setReg_same (s : State) (i : Fin 8) (v : Word) : (s.setReg i v).reg i = v := by
  simp [State.reg]

theorem State.reg_setReg_other (s : State) (i j : Fin 8) (v : Word) (h : j ≠ i) :
    (s.setReg i v).reg j = s.reg j := by
  have h' : i.val ≠ j.val := fun e => h (Fin.ext e.symm)
  simp [State.reg, Vector.getElem_set_ne, h']

/-- Registers are read from the register file alone. -/
theorem State.reg_congr {s t : State} (h : t.regs = s.regs) (r : Fin 8) : t.reg r = s.reg r := by
  simp [State.reg, h]

@[simp] theorem State.reg_reset (r : Fin 8) : State.reset.reg r = 0 := by
  simp [State.reg, State.reset]

/-- `InRead()` answers a character exactly when one is offered. -/
theorem State.inRead_eq_none (s : State) : s.inRead = none ↔ s.input = [] := by
  unfold State.inRead
  split <;> simp_all

/-- What `InRead()` does when it answers (48_io.md R245). -/
theorem State.inRead_eq_some {s t : State} {ch : Word} (h : s.inRead = some (ch, t)) :
    ∃ rest, s.input = ch :: rest ∧ t = { s with input := rest, consumed := s.consumed + 1 } := by
  unfold State.inRead at h
  split at h
  · cases h
  · rename_i c rest hin
    simp only [Option.some.injEq, Prod.mk.injEq] at h
    exact ⟨rest, by rw [hin, h.1], h.2.symm⟩

end Sys2Proof.Machine
end

