-- ==== Sys2Proof/Laws/Operands.lean ====
section
/-! SUPPORT. What each shared operation can do, once: resolution, destinations, the ends of an instruction, the memory and
stack ports, and the shapes instructions share. -/

namespace Sys2Proof.Machine

/-! ### Sequencing of checks -/

@[simp] theorem ok_bind {α β : Type} (a : α) (f : α → Except Raise β) : (Except.ok a >>= f) = f a := rfl

@[simp] theorem error_bind {α β : Type} (r : Raise) (f : α → Except Raise β) :
    ((Except.error r : Except Raise α) >>= f) = Except.error r := rfl

/-- A sequence of checks succeeds exactly when each does. -/
theorem bind_eq_ok {α β : Type} {x : Except Raise α} {f : α → Except Raise β} {b : β} :
    (x >>= f) = .ok b ↔ ∃ a, x = .ok a ∧ f a = .ok b := by
  cases x <;> simp

/-- A sequence of checks raises what the first failing one raises. -/
theorem bind_eq_error {α β : Type} {x : Except Raise α} {f : α → Except Raise β} {r : Raise} :
    (x >>= f) = .error r ↔ x = .error r ∨ ∃ a, x = .ok a ∧ f a = .error r := by
  cases x <;> simp

@[simp] theorem State.finish_ok (s t : State) : s.finish (.ok t) = .next t := rfl

@[simp] theorem State.finish_error (s : State) (r : Raise) : s.finish (.error r) = .next (s.takeFault r) := rfl

/-- An instruction always answers a next state: its effect, or the fault entry from the state it began in. -/
theorem State.finish_cases {s t : State} {x : Except Raise State} (h : s.finish x = .next t) :
    x = .ok t ∨ ∃ r, x = .error r ∧ t = s.takeFault r := by
  cases x with
  | ok u =>
    simp only [State.finish_ok, Host.Outcome.next.injEq] at h
    exact .inl (by rw [h])
  | error r =>
    simp only [State.finish_error, Host.Outcome.next.injEq] at h
    exact .inr ⟨r, rfl, h.symm⟩

theorem State.finish_next (s : State) (x : Except Raise State) : ∃ t, s.finish x = .next t := by
  cases x <;> simp

/-! ### resolve and dest -/

@[simp] theorem resolve_lit (v : Word) (s : State) : resolve (.lit v) s = .ok v := rfl

@[simp] theorem resolve_reg (i : Fin 8) (s : State) : resolve (.reg i) s = .ok (s.reg i) := rfl

@[simp] theorem resolve_invalid (w : MemWord) (s : State) : resolve (.invalid w) s = .error ⟨.invalidOperand, w⟩ := rfl

/-- `resolve` answers a literal's value or a register's value. -/
theorem resolve_eq_ok {o : Operand} {s : State} {v : Word} :
    resolve o s = .ok v ↔ o = .lit v ∨ ∃ i, o = .reg i ∧ s.reg i = v := by
  cases o <;> simp [resolve]

/-- `resolve` raises for an invalid word only. -/
theorem resolve_eq_error {o : Operand} {s : State} {r : Raise} :
    resolve o s = .error r ↔ ∃ w, o = .invalid w ∧ r = ⟨.invalidOperand, w⟩ := by
  cases o <;> simp [resolve, eq_comm]

/-- `resolve` reads the registers and nothing else. -/
theorem resolve_congr {s t : State} (h : t.regs = s.regs) (o : Operand) : resolve o t = resolve o s := by
  cases o <;> simp [resolve, State.reg, h]

@[simp] theorem dest_reg (i : Fin 8) : dest (.reg i) = .ok i := rfl

/-- `dest` answers the register the operand names. -/
theorem dest_eq_ok {o : Operand} {i : Fin 8} : dest o = .ok i ↔ o = .reg i := by
  cases o <;> simp [dest]

/-- `dest` raises for every operand but a register reference, with the raw word. -/
theorem dest_eq_error {o : Operand} {r : Raise} :
    dest o = .error r ↔ (∀ i, o ≠ .reg i) ∧ r = ⟨.invalidRegister, o.word⟩ := by
  cases o <;> simp [dest, Operand.word, eq_comm]

/-! ### The shapes -/

/-- What the end of a register-writing instruction does when it succeeds. -/
theorem writeDest_eq_ok {a : Operand} {v : Word} {n : Nat} {s t : State} :
    writeDest a v n s = .ok t ↔ ∃ i, a = .reg i ∧ t = (s.setReg i v).advance n := by
  simp only [writeDest, bind_eq_ok, dest_eq_ok, Except.ok.injEq]
  exact exists_congr fun i => and_congr_right fun _ => eq_comm

theorem writeDest_eq_error {a : Operand} {v : Word} {n : Nat} {s : State} {r : Raise} :
    writeDest a v n s = .error r ↔ (∀ i, a ≠ .reg i) ∧ r = ⟨.invalidRegister, a.word⟩ := by
  simp [writeDest, bind_eq_error, dest_eq_error]

/-- Everything a one-source instruction can do. -/
theorem unaryOp_cases {f : Word → Word} {a b : Operand} {s t : State} (h : unaryOp f a b s = .next t) :
    (∃ vb i, resolve b s = .ok vb ∧ a = .reg i ∧ t = (s.setReg i (f vb)).advance 2) ∨ ∃ r, t = s.takeFault r := by
  rcases State.finish_cases h with h | ⟨r, -, h⟩
  · obtain ⟨vb, hb, h⟩ := bind_eq_ok.1 h
    obtain ⟨i, ha, h⟩ := writeDest_eq_ok.1 h
    exact .inl ⟨vb, i, hb, ha, h⟩
  · exact .inr ⟨r, h⟩

/-- Everything a two-source instruction can do. -/
theorem binaryOp_cases {f : Word → Word → Except Raise Word} {a b c : Operand} {s t : State}
    (h : binaryOp f a b c s = .next t) :
    (∃ vb vc v i, resolve b s = .ok vb ∧ resolve c s = .ok vc ∧ f vb vc = .ok v ∧ a = .reg i ∧
      t = (s.setReg i v).advance 3) ∨ ∃ r, t = s.takeFault r := by
  rcases State.finish_cases h with h | ⟨r, -, h⟩
  · obtain ⟨vb, hb, h⟩ := bind_eq_ok.1 h
    obtain ⟨vc, hc, h⟩ := bind_eq_ok.1 h
    obtain ⟨v, hv, h⟩ := bind_eq_ok.1 h
    obtain ⟨i, ha, h⟩ := writeDest_eq_ok.1 h
    exact .inl ⟨vb, vc, v, i, hb, hc, hv, ha, h⟩
  · exact .inr ⟨r, h⟩

/-- Everything the end of a conditional branch can do when it succeeds. -/
theorem branchTo_eq_ok {taken : Bool} {b : Operand} {s t : State} :
    branchTo taken b s = .ok t ↔
      (taken = true ∧ ∃ v, resolve b s = .ok v ∧ t = s.jump v) ∨ (taken = false ∧ t = s.advance 2) := by
  cases taken with
  | false => simpa [branchTo] using eq_comm
  | true =>
    simp only [branchTo, if_true, bind_eq_ok, Except.ok.injEq, true_and, reduceCtorEq, false_and, or_false]
    exact exists_congr fun v => and_congr_right fun _ => eq_comm

/-! ### Memory and stack ports -/

/-- Everything a one-word read can do when it succeeds (20_memory.md R67). -/
theorem memRead_one_eq_ok {s : State} {addr : MemWord} {r : Raise} {ws : List MemWord} :
    memRead s addr 1 r = .ok ws ↔ addr.toNat < s.params.memWords.val ∧ ws = [s.cell addr.toNat] := by
  simp only [memRead]
  rw [if_neg (by omega)]
  split
  · simp only [reduceCtorEq, false_iff, not_and]; omega
  · simp only [List.range_one, List.map_cons, List.map_nil, Nat.add_zero, Except.ok.injEq]
    exact ⟨fun h => ⟨by omega, h.symm⟩, fun h => h.2.symm⟩

/-- Everything a write can do when it succeeds (20_memory.md R68). -/
theorem memWrite_eq_ok {s t : State} {addr w : MemWord} :
    memWrite s addr w = .ok t ↔ addr.toNat < s.params.memWords.val ∧ t = s.storeCell addr.toNat w := by
  simp only [memWrite]
  split
  · simp only [reduceCtorEq, false_iff, not_and]; omega
  · simp only [Except.ok.injEq]
    exact ⟨fun h => ⟨by omega, h.symm⟩, fun h => h.2.symm⟩

/-- Everything a push can do when it succeeds (10_state.md R40). -/
theorem pushEntry_eq_ok {s t : State} {op e : MemWord} :
    pushEntry s op e = .ok t ↔ s.stackFull = false ∧ t = { s with stack := s.stack ++ [e] } := by
  simp only [pushEntry]
  split
  · simp_all
  · rename_i h
    simp only [Bool.not_eq_true] at h
    simpa [h] using eq_comm

theorem pushEntry_eq_error {s : State} {op e : MemWord} {r : Raise} :
    pushEntry s op e = .error r ↔ s.stackFull = true ∧ r = ⟨.stackOverflow, op⟩ := by
  simp only [pushEntry]
  split
  · rename_i h
    simpa [h] using eq_comm
  · simp_all

/-- A stack is full exactly when it is finite and holds STACK_DEPTH entries (10_state.md R40, R41). -/
theorem stackFull_iff (s : State) : s.stackFull = true ↔ s.params.stackDepth = some s.stack.length := by
  unfold State.stackFull
  split <;> rename_i h <;> rw [h] <;> simp
  exact eq_comm

/-- A cell gives a register its value exactly when that is a word (47_memory_ops.md R230). -/
theorem cellValue_eq_ok {w : MemWord} {v : Word} : cellValue w = .ok v ↔ w.toNat ≤ 32767 ∧ v.toNat = w.toNat := by
  simp only [cellValue]
  split
  · simp only [reduceCtorEq, false_iff, not_and]; omega
  · rename_i h
    simp only [Except.ok.injEq, ← BitVec.toNat_inj, BitVec.toNat_ofNat]
    rw [Nat.mod_eq_of_lt (by omega)]
    omega

theorem zext16_toNat (v : Word) : (zext16 v).toNat = v.toNat := by
  have := v.isLt
  simp only [zext16, BitVec.toNat_setWidth]
  omega

end Sys2Proof.Machine
end

