-- ==== Sys2Proof/Laws/Exec.lean ====
section
/-! SUPPORT. Everything an instruction can do, said once: it completes as its rule says, or it enters a fault from the
state it began in. -/

namespace Sys2Proof.Machine

/-- `t` is the state after instruction `i` has run from `s` without a fault (40_sequencer.md R129), a wait included. -/
def Completes (i : Instr) (s t : State) : Prop :=
  match i with
  | .halt => t = s.haltCore.advance 0
  | .set a b => ∃ x r, resolve b s = .ok x ∧ a = .reg r ∧ t = (s.setReg r (x)).advance 2
  | .push a => ∃ v, resolve a s = .ok v ∧ s.stackFull = false ∧
      t = State.advance { s with stack := s.stack ++ [zext16 v] } 1
  | .pop a => ∃ p v r, s.stack.getLast? = some p ∧ resolveEntry p s = .ok v ∧ a = .reg r ∧
      t = (s.dropTop.setReg r v).advance 1
  | .eq a b c => ∃ x y r, resolve b s = .ok x ∧ resolve c s = .ok y ∧ a = .reg r ∧
      t = (s.setReg r (eqWord x y)).advance 3
  | .gt a b c => ∃ x y r, resolve b s = .ok x ∧ resolve c s = .ok y ∧ a = .reg r ∧
      t = (s.setReg r (gtWord x y)).advance 3
  | .jmp a => ∃ v, resolve a s = .ok v ∧ t = s.jump v
  | .jt a b => ∃ x, resolve a s = .ok x ∧
      ((nonzero x = true ∧ ∃ v, resolve b s = .ok v ∧ t = s.jump v) ∨ (nonzero x = false ∧ t = s.advance 2))
  | .jf a b => ∃ x, resolve a s = .ok x ∧
      ((nonzero x = false ∧ ∃ v, resolve b s = .ok v ∧ t = s.jump v) ∨ (nonzero x = true ∧ t = s.advance 2))
  | .add a b c => ∃ x y r, resolve b s = .ok x ∧ resolve c s = .ok y ∧ a = .reg r ∧
      t = (s.setReg r (addWord x y)).advance 3
  | .mult a b c => ∃ x y r, resolve b s = .ok x ∧ resolve c s = .ok y ∧ a = .reg r ∧
      t = (s.setReg r (multWord x y)).advance 3
  | .mod a b c => ∃ x y r, resolve b s = .ok x ∧ resolve c s = .ok y ∧ y.toNat ≠ 0 ∧ a = .reg r ∧
      t = (s.setReg r (modWord x y)).advance 3
  | .and a b c => ∃ x y r, resolve b s = .ok x ∧ resolve c s = .ok y ∧ a = .reg r ∧
      t = (s.setReg r (andWord x y)).advance 3
  | .or a b c => ∃ x y r, resolve b s = .ok x ∧ resolve c s = .ok y ∧ a = .reg r ∧
      t = (s.setReg r (orWord x y)).advance 3
  | .not a b => ∃ x r, resolve b s = .ok x ∧ a = .reg r ∧ t = (s.setReg r (notWord x)).advance 2
  | .rmem a b => ∃ addr v r, resolve b s = .ok addr ∧ addr.toNat < s.params.memWords.val ∧
      (s.cell addr.toNat).toNat ≤ 32767 ∧ v.toNat = (s.cell addr.toNat).toNat ∧ a = .reg r ∧
      t = (s.setReg r v).advance 2
  | .wmem a b => ∃ addr v, resolve a s = .ok addr ∧ resolve b s = .ok v ∧ addr.toNat < s.params.memWords.val ∧
      t = (s.storeCell addr.toNat (zext16 v)).advance 2
  | .call a => ∃ v, resolve a s = .ok v ∧ s.stackFull = false ∧
      t = State.jump { s with stack := s.stack ++ [s.pc + 2] } v
  | .ret => (s.stack = [] ∧ t = s.haltCore) ∨
      ∃ p v, s.stack.getLast? = some p ∧ resolveEntry p s = .ok v ∧ t = s.dropTop.jump v
  | .out a => ∃ v, resolve a s = .ok v ∧
      ((s.outReady = true ∧ t = (s.outWrite v).advance 1) ∨ (s.outReady = false ∧ t = s))
  | .inp a => ∃ r, a = .reg r ∧
      ((s.input = [] ∧ t = s) ∨
        ∃ ch rest, s.input = ch :: rest ∧
          t = (State.setReg { s with input := rest, consumed := s.consumed + 1 } r ch).advance 1)
  | .noop => t = s.advance 0

/-- Everything `exec` can do. -/
theorem exec_cases {i : Instr} {s t : State} (h : exec i s = .next t) :
    Completes i s t ∨ ∃ r, t = s.takeFault r := by
  cases i
  case halt =>
    have e : exec .halt s = .next (s.haltCore.advance 0) := rfl
    cases e.symm.trans h
    exact .inl rfl
  case noop =>
    have e : exec .noop s = .next (s.advance 0) := rfl
    cases e.symm.trans h
    exact .inl rfl
  case set => exact unaryOp_cases h
  case not => exact unaryOp_cases h
  case mod =>
    rcases binaryOp_cases h with ⟨x, y, v, r, hb, hc, hv, ha, ht⟩ | hr
    · unfold modChecked at hv
      split at hv
      · cases hv
      · cases hv
        exact .inl ⟨x, y, r, hb, hc, by assumption, ha, ht⟩
    · exact .inr hr
  case eq =>
    rcases binaryOp_cases h with ⟨x, y, v, r, hb, hc, hv, ha, ht⟩ | hr
    · cases hv
      exact .inl ⟨x, y, r, hb, hc, ha, ht⟩
    · exact .inr hr
  case gt =>
    rcases binaryOp_cases h with ⟨x, y, v, r, hb, hc, hv, ha, ht⟩ | hr
    · cases hv
      exact .inl ⟨x, y, r, hb, hc, ha, ht⟩
    · exact .inr hr
  case add =>
    rcases binaryOp_cases h with ⟨x, y, v, r, hb, hc, hv, ha, ht⟩ | hr
    · cases hv
      exact .inl ⟨x, y, r, hb, hc, ha, ht⟩
    · exact .inr hr
  case mult =>
    rcases binaryOp_cases h with ⟨x, y, v, r, hb, hc, hv, ha, ht⟩ | hr
    · cases hv
      exact .inl ⟨x, y, r, hb, hc, ha, ht⟩
    · exact .inr hr
  case and =>
    rcases binaryOp_cases h with ⟨x, y, v, r, hb, hc, hv, ha, ht⟩ | hr
    · cases hv
      exact .inl ⟨x, y, r, hb, hc, ha, ht⟩
    · exact .inr hr
  case or =>
    rcases binaryOp_cases h with ⟨x, y, v, r, hb, hc, hv, ha, ht⟩ | hr
    · cases hv
      exact .inl ⟨x, y, r, hb, hc, ha, ht⟩
    · exact .inr hr
  case pop =>
    rcases State.finish_cases h with h | ⟨r, -, h⟩
    · split at h
      · cases h
      · rename_i p hp
        obtain ⟨v, hv, h⟩ := bind_eq_ok.1 h
        obtain ⟨r, ha, h⟩ := writeDest_eq_ok.1 h
        exact .inl ⟨p, v, r, hp, hv, ha, h⟩
    · exact .inr ⟨r, h⟩
  case ret =>
    rcases State.finish_cases h with h | ⟨r, -, h⟩
    · split at h
      · rename_i hp
        cases h
        exact .inl (.inl ⟨by simpa using hp, rfl⟩)
      · rename_i p hp
        obtain ⟨v, hv, h⟩ := bind_eq_ok.1 h
        cases h
        exact .inl (.inr ⟨p, v, hp, hv, rfl⟩)
    · exact .inr ⟨r, h⟩
  case inp =>
    rcases State.finish_cases h with h | ⟨r, -, h⟩
    · obtain ⟨r, ha, h⟩ := bind_eq_ok.1 h
      refine .inl ⟨r, dest_eq_ok.1 ha, ?_⟩
      split at h
      · rename_i hin
        cases h
        exact .inl ⟨(State.inRead_eq_none s).1 hin, rfl⟩
      · rename_i ch u hin
        obtain ⟨rest, hi, rfl⟩ := State.inRead_eq_some hin
        cases h
        exact .inr ⟨ch, rest, hi, rfl⟩
    · exact .inr ⟨r, h⟩
  case out =>
    rcases State.finish_cases h with h | ⟨r, -, h⟩
    · obtain ⟨v, hv, h⟩ := bind_eq_ok.1 h
      refine .inl ⟨v, hv, ?_⟩
      cases hr : s.outReady <;> simp [hr] at h <;> simp [← h, State.hold]
    · exact .inr ⟨r, h⟩
  case jmp =>
    rcases State.finish_cases h with h | ⟨r, -, h⟩
    · obtain ⟨v, hv, h⟩ := bind_eq_ok.1 h
      cases h
      exact .inl ⟨v, hv, rfl⟩
    · exact .inr ⟨r, h⟩
  case jt =>
    rcases State.finish_cases h with h | ⟨r, -, h⟩
    · obtain ⟨x, hx, h⟩ := bind_eq_ok.1 h
      exact .inl ⟨x, hx, branchTo_eq_ok.1 h⟩
    · exact .inr ⟨r, h⟩
  case jf =>
    rcases State.finish_cases h with h | ⟨r, -, h⟩
    · obtain ⟨x, hx, h⟩ := bind_eq_ok.1 h
      exact .inl ⟨x, hx, by simpa using branchTo_eq_ok.1 h⟩
    · exact .inr ⟨r, h⟩
  case push =>
    rcases State.finish_cases h with h | ⟨r, -, h⟩
    · obtain ⟨v, hv, h⟩ := bind_eq_ok.1 h
      obtain ⟨u, hu, h⟩ := bind_eq_ok.1 h
      obtain ⟨hf, rfl⟩ := pushEntry_eq_ok.1 hu
      cases h
      exact .inl ⟨v, hv, hf, rfl⟩
    · exact .inr ⟨r, h⟩
  case call =>
    rcases State.finish_cases h with h | ⟨r, -, h⟩
    · obtain ⟨v, hv, h⟩ := bind_eq_ok.1 h
      obtain ⟨u, hu, h⟩ := bind_eq_ok.1 h
      obtain ⟨hf, rfl⟩ := pushEntry_eq_ok.1 hu
      cases h
      exact .inl ⟨v, hv, hf, rfl⟩
    · exact .inr ⟨r, h⟩
  case wmem =>
    rcases State.finish_cases h with h | ⟨r, -, h⟩
    · obtain ⟨addr, ha, h⟩ := bind_eq_ok.1 h
      obtain ⟨v, hv, h⟩ := bind_eq_ok.1 h
      obtain ⟨u, hu, h⟩ := bind_eq_ok.1 h
      obtain ⟨hb, rfl⟩ := memWrite_eq_ok.1 hu
      rw [zext16_toNat] at hb
      cases h
      exact .inl ⟨addr, v, ha, hv, hb, by rw [zext16_toNat]⟩
    · exact .inr ⟨r, h⟩
  case rmem =>
    rcases State.finish_cases h with h | ⟨r, -, h⟩
    · obtain ⟨addr, ha, h⟩ := bind_eq_ok.1 h
      obtain ⟨ws, hw, h⟩ := bind_eq_ok.1 h
      obtain ⟨v, hv, h⟩ := bind_eq_ok.1 h
      obtain ⟨r, hr, ht⟩ := writeDest_eq_ok.1 h
      obtain ⟨hb, rfl⟩ := memRead_one_eq_ok.1 hw
      rw [zext16_toNat] at hb hv
      obtain ⟨hle, he⟩ := cellValue_eq_ok.1 hv
      exact .inl ⟨addr, v, r, ha, hb, hle, he, hr, ht⟩
    · exact .inr ⟨r, h⟩

/-- `exec` stops on no instruction: every arm ends in a next state. -/
theorem exec_next (i : Instr) (s : State) : ∃ t, exec i s = .next t := by
  cases i
  case halt => exact ⟨_, rfl⟩
  case noop => exact ⟨_, rfl⟩
  all_goals exact State.finish_next s _

end Sys2Proof.Machine
end

