-- ==== Sys2Proof/Tests/Slice0.lean ====
section
/-! SUPPORT. Tests of the model on words and outcomes taken from spec/ (30_encoding.md, 95_test_vectors.md), and for every
statement with hypotheses a witness that meets them, one for each clause. -/

namespace Sys2Proof.Tests

open Sys2Proof Sys2Proof.Machine

set_option Elab.async false

/-! ### Helpers -/

/-- The construction state with an image of the given words. -/
def image (ws : List MemWord) : State :=
  { State.reset with
    mem := Memory.ofBytes 0 (bytesOfWords ws)
    params := { State.reset.params with
      image := Memory.ofBytes 0 (bytesOfWords ws), memWords := ⟨min 32768 ws.length, by omega⟩ } }

/-- One register changed. -/
def withReg (s : State) (i : Fin 8) (v : Word) : State := s.setReg i v

/-- The stack changed. -/
def withStack (s : State) (st : List MemWord) : State := { s with stack := st }

/-- A finite STACK_DEPTH. -/
def withDepth (s : State) (d : Nat) : State := { s with params := { s.params with stackDepth := some d } }

/-- The next state, where there is one. -/
def after (o : Host.Outcome State Fault Refusal) : Option State :=
  match o with
  | .next t => some t
  | .fault _ => none
  | .refused _ => none

/-- The refusal, where there is one. -/
def refusalOf (o : Host.Outcome State Fault Refusal) : Option Refusal :=
  match o with
  | .next _ => none
  | .fault _ => none
  | .refused r => some r

/-- A view of the state after one step. -/
def view {α : Type} (s : State) (f : State → α) : Option α := (after (step s)).map f

/-- The end of a run as 95_test_vectors.md writes it. -/
structure Ending where
  status : Status
  code : BitVec 4
  faultPc : MemWord
  faultInfo : MemWord
  pc : MemWord
  deriving DecidableEq, Repr

/-- The end a state shows. -/
def ending (t : State) : Ending := ⟨t.status, t.faultCode, t.faultPc, t.faultInfo, t.pc⟩

/-! ### Well-formedness -/

/-- A literal, and a register reference, are no `invalid` operand (30_encoding.md R92). -/
theorem test_wf_refuses_misclassed_words :
    Operand.wf (.invalid 32767) = false ∧ Operand.wf (.invalid 32775) = false ∧ Operand.wf (.invalid 32776) = true ∧
    Operand.wf (.invalid 65535) = true := by decide

/-- The check reaches every operand place. -/
theorem test_wf_refuses_each_place :
    Instr.wf (.push (.invalid 5)) = false ∧ Instr.wf (.set (.reg 0) (.invalid 5)) = false ∧
    Instr.wf (.add (.invalid 5) (.lit 1) (.lit 1)) = false ∧ Instr.wf (.add (.reg 0) (.invalid 5) (.lit 1)) = false ∧
    Instr.wf (.add (.reg 0) (.lit 1) (.invalid 5)) = false ∧ Instr.wf (.add (.reg 0) (.lit 1) (.reg 7)) = true := by
  decide

/-! ### Decoding, each word written out bit by bit (30_encoding.md R92, R95) -/

theorem test_decode_f0 :
    decodeWords [0b0000000000000000] = .ok (.halt, []) ∧
    decodeWords [0b0000000000010010] = .ok (.ret, []) ∧
    decodeWords [0b0000000000010101] = .ok (.noop, []) := by decide +kernel

theorem test_decode_f1 :
    decodeWords [0b0000000000000010, 0b0111111111111111] = .ok (.push (.lit 32767), []) ∧
    decodeWords [0b0000000000000011, 0b1000000000000100] = .ok (.pop (.reg 4), []) ∧
    decodeWords [0b0000000000000110, 0b0000000000001010] = .ok (.jmp (.lit 10), []) ∧
    decodeWords [0b0000000000010001, 0b1000000000000001] = .ok (.call (.reg 1), []) ∧
    decodeWords [0b0000000000010011, 0b0000000001000001] = .ok (.out (.lit 65), []) ∧
    decodeWords [0b0000000000010100, 0b1000000000000111] = .ok (.inp (.reg 7), []) := by decide +kernel

theorem test_decode_f2 :
    decodeWords [0b0000000000000001, 0b1000000000000010, 0b0011000000111001] =
      .ok (.set (.reg 2) (.lit 12345), []) ∧
    decodeWords [0b0000000000000111, 0b1000000000000000, 0b0000000000000011] = .ok (.jt (.reg 0) (.lit 3), []) ∧
    decodeWords [0b0000000000001000, 0b0000000000000001, 0b1001110001000000] =
      .ok (.jf (.lit 1) (.invalid 40000), []) ∧
    decodeWords [0b0000000000001110, 0b1000000000000001, 0b0000000000000000] = .ok (.not (.reg 1) (.lit 0), []) ∧
    decodeWords [0b0000000000001111, 0b1000000000000010, 0b0000000000001001] = .ok (.rmem (.reg 2) (.lit 9), []) ∧
    decodeWords [0b0000000000010000, 0b0000000000001010, 0b0000000001001000] =
      .ok (.wmem (.lit 10) (.lit 72), []) := by decide +kernel

theorem test_decode_f3 :
    decodeWords [0b0000000000000100, 0b1000000000000010, 5, 0b1000000000000101] =
      .ok (.eq (.reg 2) (.lit 5) (.reg 5), []) ∧
    decodeWords [0b0000000000000101, 0b1000000000000001, 3, 9] = .ok (.gt (.reg 1) (.lit 3) (.lit 9), []) ∧
    decodeWords [0b0000000000001001, 0b1000000000000000, 0b0111111111111111, 1] =
      .ok (.add (.reg 0) (.lit 32767) (.lit 1), []) ∧
    decodeWords [0b0000000000001010, 0b1000000000000001, 200, 0b1000000000000110] =
      .ok (.mult (.reg 1) (.lit 200) (.reg 6), []) ∧
    decodeWords [0b0000000000001011, 0b1000000000000010, 10, 3] = .ok (.mod (.reg 2) (.lit 10) (.lit 3), []) ∧
    decodeWords [0b0000000000001100, 0b1000000000000011, 0b0111111111111111, 0b0101010101010101] =
      .ok (.and (.reg 3) (.lit 32767) (.lit 21845), []) ∧
    decodeWords [0b0000000000001101, 0b1000000000000000, 0b0101010101010101, 0b0010101010101010] =
      .ok (.or (.reg 0) (.lit 21845) (.lit 10922), []) := by decide +kernel

/-- Unknown opcodes, a register reference as an opcode among them, and a shortfall of operands (30_encoding.md R91, R97). -/
theorem test_decode_refuses_by_name :
    decodeWords [22] = .error (.unknownOpcode 22) ∧ decodeWords [65535, 0] = .error (.unknownOpcode 65535) ∧
    decodeWords [32768, 0] = .error (.unknownOpcode 32768) ∧
    decodeWords [9, 32768, 1] = .error (.missingOperands 9) ∧ decodeWords [] = .error .noOpcodeWord := by
  decide +kernel

/-- Byte image `13 00 41 00 00 00` begins with `out 65`; `00 13` is opcode 4864 (95_test_vectors.md Q8, Q9). -/
theorem test_decode_bytes_little_endian :
    decodeBytes [0x13, 0x00, 0x41, 0x00, 0x00, 0x00] = .ok (.out (.lit 65), [0x00, 0x00]) ∧
    decodeBytes [0x00, 0x13] = .error (.unknownOpcode 4864) := by decide +kernel

/-- The words of the table's rows decode and run after reset. -/
theorem test_table_words_run :
    decodeTableWord 16 21 = some .noop ∧ decodeTableWord 32 (19 + 65536 * 65) = some (.out (.lit 65)) ∧
    view (State.reset.withFetchWord 32 (19 + 65536 * 65)) (fun t => (t.output, t.pc)) = some ([65], 2) := by
  decide +kernel

/-! ### One step of each instruction (95_test_vectors.md section 2) -/

/-- M1, and M4's second step: the pc does not wrap. -/
theorem test_halt :
    view (image [0]) ending = some ⟨.halted, 0, 0, 0, 1⟩ ∧
    after (exec .halt { image [0] with pc := 32767 }) = some { image [0] with pc := 32768, status := .halted } := by
  decide +kernel

/-- M2. -/
theorem test_noop : view (image [21, 0]) ending = some ⟨.running, 0, 0, 0, 1⟩ := by decide +kernel

/-- R1, R7. -/
theorem test_set :
    view (image [1, 32770, 12345]) (fun t => (t.reg 2, t.pc)) = some (12345, 3) ∧
    view (image [1, 32775, 32767]) (fun t => t.reg 7) = some 32767 := by decide +kernel

/-- R6, R4: the source is checked before the destination. -/
theorem test_set_faults :
    view (image [1, 40000, 32776]) ending = some ⟨.faulted, 1, 0, 32776, 0⟩ ∧
    view (image [1, 5, 10]) ending = some ⟨.faulted, 2, 0, 5, 0⟩ := by decide +kernel

/-- K2. -/
theorem test_push :
    view (withStack (withReg (image [2, 32769]) 1 9) [7]) (fun t => (t.stack, t.pc)) = some ([7, 9], 2) := by
  decide +kernel

/-- K4, K5. -/
theorem test_push_finite_stack :
    view (withDepth (withStack (image [2, 1]) [5, 6]) 2) (fun t => (ending t, t.stack)) =
      some (⟨.faulted, 9, 0, 2, 0⟩, [5, 6]) ∧
    view (withDepth (withStack (image [2, 1]) [5]) 2) (fun t => t.stack) = some [5, 1] := by decide +kernel

/-- K6, K10: the popped entry is resolved. -/
theorem test_pop :
    view (withStack (image [3, 32772]) [7, 9]) (fun t => (t.reg 4, t.stack, t.pc)) = some (9, [7], 2) ∧
    view (withStack (withReg (image [3, 32769]) 0 1234) [32768]) (fun t => (t.reg 1, t.stack)) = some (1234, []) := by
  decide +kernel

/-- K8, K9: emptiness first; the entry stays. -/
theorem test_pop_faults :
    view (withStack (image [3, 5]) [1]) (fun t => (ending t, t.stack)) = some (⟨.faulted, 2, 0, 5, 0⟩, [1]) ∧
    view (image [3, 5]) ending = some ⟨.faulted, 5, 0, 3, 0⟩ := by decide +kernel

/-- C2, C4. -/
theorem test_eq :
    view (withReg (image [4, 32768, 32768, 32768]) 0 3) (fun t => (t.reg 0, t.pc)) = some (1, 4) ∧
    view (withReg (image [4, 32769, 0, 32769]) 1 4) (fun t => t.reg 1) = some 0 := by decide +kernel

/-- C9, C12: strict and unsigned. -/
theorem test_gt :
    view (withReg (image [5, 32768, 5, 5]) 0 7) (fun t => (t.reg 0, t.pc)) = some (0, 4) ∧
    view (image [5, 32768, 16384, 16383]) (fun t => t.reg 0) = some 1 := by decide +kernel

/-- B2, B23: a target past the extent is taken. -/
theorem test_jmp :
    view (withReg (image [6, 32773]) 5 2) (fun t => t.pc) = some 2 ∧ view (image [6, 5, 0]) (fun t => t.pc) = some 5 := by
  decide +kernel

/-- B4, B5, B7. -/
theorem test_jt :
    view (withReg (image [7, 32768, 3]) 0 3) (fun t => t.pc) = some 3 ∧
    view (image [7, 0, 40000]) ending = some ⟨.running, 0, 0, 0, 3⟩ ∧
    view (image [7, 1, 40000]) ending = some ⟨.faulted, 1, 0, 40000, 0⟩ := by decide +kernel

/-- B9, B10, B11. -/
theorem test_jf :
    view (image [8, 0, 20]) (fun t => t.pc) = some 20 ∧
    view (image [8, 1, 40000]) ending = some ⟨.running, 0, 0, 0, 3⟩ ∧
    view (image [8, 0, 40000]) ending = some ⟨.faulted, 1, 0, 40000, 0⟩ := by decide +kernel

/-- A1, A3. -/
theorem test_add :
    view (withReg (image [9, 32768, 32767, 1]) 0 5) (fun t => (t.reg 0, t.pc)) = some (0, 4) ∧
    view (withReg (image [9, 32768, 32768, 32768]) 0 20000) (fun t => t.reg 0) = some 7232 := by decide +kernel

/-- A7, A8. -/
theorem test_mult :
    view (image [10, 32768, 32767, 32767]) (fun t => (t.reg 0, t.pc)) = some (1, 4) ∧
    view (withReg (image [10, 32768, 256, 128]) 0 9) (fun t => t.reg 0) = some 0 := by decide +kernel

/-- A10, A11. -/
theorem test_mod :
    view (image [11, 32770, 10, 3]) (fun t => (t.reg 2, t.pc)) = some (1, 4) ∧
    view (image [11, 32770, 3, 10]) (fun t => t.reg 2) = some 3 := by decide +kernel

/-- A16, A17: the info is the raw divisor word; the divisor is checked before the destination. -/
theorem test_mod_by_zero :
    view (image [11, 32770, 5, 32771]) ending = some ⟨.faulted, 7, 0, 32771, 0⟩ ∧
    view (image [11, 7, 5, 0]) ending = some ⟨.faulted, 7, 0, 0, 0⟩ := by decide +kernel

/-- L1. -/
theorem test_and : view (image [12, 32771, 32767, 21845]) (fun t => (t.reg 3, t.pc)) = some (21845, 4) := by
  decide +kernel

/-- L3. -/
theorem test_or : view (image [13, 32768, 21845, 10922]) (fun t => (t.reg 0, t.pc)) = some (32767, 4) := by
  decide +kernel

/-- L7, L8. -/
theorem test_not :
    view (image [14, 32769, 21845]) (fun t => (t.reg 1, t.pc)) = some (10922, 3) ∧
    view (withReg (image [14, 32770, 32770]) 2 1) (fun t => t.reg 2) = some 32766 := by decide +kernel

/-- W1, W7. -/
theorem test_rmem :
    view (image [15, 32770, 3, 19]) (fun t => (t.reg 2, t.pc)) = some (19, 3) ∧
    view (image [15, 32768, 0]) (fun t => t.reg 0) = some 15 := by decide +kernel

/-- W3, W4, W5. -/
theorem test_rmem_faults :
    view (image [15, 32769, 1, 0]) ending = some ⟨.faulted, 8, 0, 32769, 0⟩ ∧
    view (image [15, 32769, 4, 0]) ending = some ⟨.faulted, 4, 0, 4, 0⟩ ∧
    view (image [15, 9, 3, 5]) ending = some ⟨.faulted, 2, 0, 9, 0⟩ := by decide +kernel

/-- W9, W13. -/
theorem test_wmem :
    view (withReg (image [16, 32768, 32768, 0]) 0 3) (fun t => (t.cell 3, t.cell 2, t.pc)) = some (3, 32768, 3) ∧
    view (image [16, 1, 0, 0]) (fun t => (t.cell 1, t.mem.wf, t.pc)) = some (0, true, 3) := by decide +kernel

/-- W10, W12. -/
theorem test_wmem_faults :
    view (image [16, 4, 1, 0]) ending = some ⟨.faulted, 4, 0, 4, 0⟩ ∧
    view (image [16, 4, 40000, 0]) ending = some ⟨.faulted, 1, 0, 40000, 0⟩ := by decide +kernel

/-- B14, B17. -/
theorem test_call :
    view (image [17, 3, 0, 0]) (fun t => (t.stack, t.pc)) = some ([2], 3) ∧
    view (withDepth (withStack (image [17, 1, 0, 0]) [9]) 1) (fun t => (ending t, t.stack)) =
      some (⟨.faulted, 9, 0, 17, 0⟩, [9]) := by decide +kernel

/-- B18, B19, B21. -/
theorem test_ret :
    view (withStack (image [18]) [3]) (fun t => (t.pc, t.stack)) = some (3, []) ∧
    view (image [18]) ending = some ⟨.halted, 0, 0, 0, 0⟩ ∧
    view (withStack (withReg (image [18, 0, 0, 0]) 0 2) [32768]) (fun t => (t.pc, t.stack)) = some (2, []) := by
  decide +kernel

/-- I2, I5. -/
theorem test_out :
    view (withReg (image [19, 32771, 0]) 3 10) (fun t => (t.output, t.pc)) = some ([10], 2) ∧
    view { image [19, 65, 0] with outReady := false } (fun t => (t.output, t.pc, t.status)) = some ([], 0, .running) := by
  decide +kernel

/-- I6, I7, I8. -/
theorem test_in :
    view { image [20, 32768, 0] with input := [103] } (fun t => (t.reg 0, t.input, t.pc)) = some (103, [], 2) ∧
    view (image [20, 32768, 0]) (fun t => (t.reg 0, t.pc, t.status)) = some (0, 0, .running) ∧
    view { image [20, 5, 0] with input := [103] } (fun t => (ending t, t.input)) =
      some (⟨.faulted, 2, 0, 5, 0⟩, [103]) := by decide +kernel

/-! ### Sequencer, reset and load -/

/-- Q1, Q4, Q6, Q10. -/
theorem test_sequencer_ends :
    view (image [22, 0]) ending = some ⟨.faulted, 6, 0, 22, 0⟩ ∧
    view (image [9, 32768, 1]) ending = some ⟨.faulted, 3, 0, 9, 0⟩ ∧
    view (image []) ending = some ⟨.faulted, 4, 0, 0, 0⟩ ∧
    view { image [21, 0] with stopReq := true, params := { (image [21, 0]).params with hostStop := true } } ending =
      some ⟨.stopped, 0, 0, 0, 0⟩ := by decide +kernel

/-- Q7, Q8 and R64, R65: what the loader accepts and refuses. -/
theorem test_load :
    (after (deliver (.load [0x13, 0x00, 0x41, 0x00, 0x00, 0x00]) State.reset)).map
      (fun t => (t.cell 0, t.cell 1, t.cell 2, t.params.memWords.val)) = some (19, 65, 0, 3) ∧
    refusalOf (deliver (.load [0, 0, 0]) State.reset) = some .imageOddLength := by decide +kernel

/-- After load, the construction state (R290) whatever the CORE held. -/
theorem test_reset :
    after (deliver .reset (withStack (withReg (image [21]) 3 5) [7])) = some (image [21]) := by decide +kernel

/-! ### Witnesses: a state and operands that meet the hypotheses of each statement, clause by clause -/

theorem wit_DecodeInvertsEncode :
    decodeWords [9, 32768, 32767, 1, 7] = .ok (.add (.reg 0) (.lit 32767) (.lit 1), [7]) ∧
    Instr.wf (.add (.reg 0) (.lit 32767) (.invalid 65535)) = true := by decide +kernel

theorem wit_EncodedBytesDecode : Instr.wf (.jt (.lit 0) (.invalid 32776)) = true := by decide

theorem wit_OpcodesAbove21AreUnknown :
    22 ≤ (22 : MemWord).toNat ∧ (21 : MemWord).toNat ≤ 21 ∧ (image [22]).fetching ∧
    (image [22]).pc.toNat < (image [22]).params.memWords.val ∧ 22 ≤ ((image [22]).cell 0).toNat := by decide +kernel

theorem wit_OperandClassesByBitFields :
    (32767 : MemWord).extractLsb' 15 1 = 0 ∧
    (32775 : MemWord).extractLsb' 15 1 = 1 ∧ (32775 : MemWord).extractLsb' 3 12 = 0 ∧
    (32776 : MemWord).extractLsb' 15 1 = 1 ∧ (32776 : MemWord).extractLsb' 3 12 ≠ 0 := by decide +kernel

theorem wit_StepExecutesTheInstructionAtThePc :
    (image [19, 65]).fetching ∧ Instr.wf (.out (.lit 65)) = true ∧
    (image [19, 65]).pc.toNat + Instr.length (.out (.lit 65)) ≤ (image [19, 65]).params.memWords.val ∧
    (List.range 2).map (fun k => (image [19, 65]).cell ((image [19, 65]).pc.toNat + k)) = encode (.out (.lit 65)) := by
  decide +kernel

theorem wit_FetchBeyondTheExtentFaults :
    (image []).fetching ∧ (image []).params.memWords.val ≤ (image []).pc.toNat := by decide +kernel

/-- The three clauses: opcode 22, opcode 21 and 9 at the end of the extent, opcode 9 with its last operand in the last
cell. -/
theorem wit_DecodeChecksCatalogThenOperands :
    (image [22]).fetching ∧ 0 < (image [22]).params.memWords.val ∧ 21 < ((image [22]).cell 0).toNat ∧
    (image [9, 32768, 1]).fetching ∧ ((image [9, 32768, 1]).cell 0).toNat ≤ 21 ∧
    (image [9, 32768, 1]).params.memWords.val ≤ 0 + 3 ∧
    (image [9, 32768, 1, 1]).fetching ∧ ((image [9, 32768, 1, 1]).cell 0).toNat ≤ 21 ∧
    0 + 3 < (image [9, 32768, 1, 1]).params.memWords.val := by decide +kernel

theorem wit_FinalStatesDoNothing :
    { image [21] with status := .halted }.status ≠ .running ∧ { image [21] with status := .faulted }.status ≠ .running ∧
    { image [21] with status := .stopped }.status ≠ .running := by decide

/-- With HOST_STOP a request is pending; without it a step goes on. -/
theorem wit_HostStopEndsTheRunOrIsAbsent :
    (image [21]).status = .running ∧ { (image [21]).params with hostStop := true }.hostStop = true ∧
    { image [21] with stopReq := true }.stopReq = true ∧ (image [21]).params.hostStop = false ∧
    after (step (image [21])) = some { image [21] with pc := 1 } := by decide +kernel

theorem wit_ResolveByOperandWord :
    (32767 : MemWord).toNat ≤ 32767 ∧ (32768 : MemWord).toNat = 32768 + (0 : Fin 8).val ∧
    (32775 : MemWord).toNat = 32768 + (7 : Fin 8).val ∧ 32776 ≤ (32776 : MemWord).toNat := by decide +kernel

theorem wit_DestByOperandWord :
    (32775 : MemWord).toNat = 32768 + (7 : Fin 8).val ∧ (32767 : MemWord).toNat < 32768 ∧
    32776 ≤ (32776 : MemWord).toNat := by decide +kernel

theorem wit_FaultsArePrecise :
    (image [3, 32768]).status = .running ∧
    after (step (image [3, 32768])) = some ((image [3, 32768]).faultedWith .stackUnderflow 3) ∧
    ((image [3, 32768]).faultedWith .stackUnderflow 3).status = .faulted := by decide +kernel

theorem wit_UntakenTargetsAreNeverResolved :
    resolve (.lit 0) State.reset = .ok 0 ∧ resolve (.lit 1) State.reset = .ok 1 ∧ (1 : Word) ≠ 0 := by decide

/-- The four kinds of operand a rule of three operands speaks of: two that resolve, a register and a non-register
destination, an invalid word. It serves eq, gt, add, mult, and, or. -/
theorem wit_ThreeOperandRule :
    resolve (.lit 32767) State.reset = .ok 32767 ∧ resolve (.reg 7) State.reset = .ok 0 ∧
    (Operand.reg 7 = .reg 7) ∧ (Operand.invalid 32776 = .invalid 32776) ∧ notRegister (.lit 32767) ∧
    notRegister (.invalid 32776) := by decide +kernel

/-- The same for the rules of two operands: set and not. -/
theorem wit_TwoOperandRule :
    resolve (.reg 0) State.reset = .ok 0 ∧ (Operand.reg 0 = .reg 0) ∧ (Operand.invalid 65535 = .invalid 65535) ∧
    notRegister (.lit 0) ∧ notRegister (.invalid 65535) := by decide +kernel

/-- PushAppendsTheResolvedSource, CallPushesTheReturnAddress: a full finite stack, a finite stack with one
place free, an unbounded stack. -/
theorem wit_PushAndCall :
    resolve (.lit 1) State.reset = .ok 1 ∧
    (withDepth (withStack (image [2, 1]) [5, 6]) 2).params.stackDepth = some 2 ∧
    (withDepth (withStack (image [2, 1]) [5, 6]) 2).stack.length = 2 ∧
    (withDepth (withStack (image [2, 1]) [5]) 2).params.stackDepth ≠
      some (withDepth (withStack (image [2, 1]) [5]) 2).stack.length ∧
    (image [2, 1]).params.stackDepth ≠ some (image [2, 1]).stack.length := by decide +kernel

/-- PopResolvesTheTopEntry, RetResolvesTheTopEntryOrHalts: an empty stack, the entries 0, 32767 and 32768 on top, a register
and a non-register destination. -/
theorem wit_PopAndRet :
    (image [18]).stack = [] ∧ (withStack (image [18]) [7, 0]).stack = [7] ++ [0] ∧ (0 : MemWord).toNat ≤ 32767 ∧
    (withStack (image [18]) [32767]).stack = [] ++ [32767] ∧ (32767 : MemWord).toNat ≤ 32767 ∧
    (withStack (image [18]) [32768]).stack = [] ++ [32768] ∧ (32768 : MemWord).toNat ≤ 32768 ∧
    (Operand.reg 4 = .reg 4) ∧ notRegister (.lit 5) := by decide +kernel

/-- A balanced sequence between a push and its pop, which runs to the end. -/
theorem wit_EveryPopStoresTheLatestOpenPush :
    Balanced [.push (.lit 9), .pop (.reg 1)] ∧
    (execAll (.push (.lit 7) :: [.push (.lit 9), .pop (.reg 1)] ++ [.pop (.reg 2)]) State.reset).isSome = true ∧
    (execAll [.push (.lit 9), .pop (.reg 1)] State.reset).isSome = true :=
  ⟨.block (.lit 9) (.reg 1) [] [] .nil .nil, by decide +kernel, by decide +kernel⟩

/-- JmpGoesToTheResolvedTarget, JtJumpsIfNonzero, JfJumpsIfZero: a false and a true condition, a target that
resolves, an invalid target. -/
theorem wit_JumpsAndBranches :
    resolve (.lit 0) State.reset = .ok 0 ∧ (0 : Word).toNat = 0 ∧ resolve (.lit 32767) State.reset = .ok 32767 ∧
    (32767 : Word).toNat ≠ 0 ∧ resolve (.reg 5) State.reset = .ok 0 ∧ (Operand.invalid 40000 = .invalid 40000) := by
  decide +kernel

/-- mod: a divisor 0, a divisor 1, and both kinds of destination. -/
theorem wit_ModIsTheUnsignedRemainder :
    resolve (.lit 5) State.reset = .ok 5 ∧ resolve (.reg 3) State.reset = .ok 0 ∧ (0 : Word).toNat = 0 ∧
    resolve (.lit 1) State.reset = .ok 1 ∧ (1 : Word).toNat ≠ 0 ∧ notRegister (.lit 7) ∧
    (Operand.invalid 40000 = .invalid 40000) ∧ (Operand.reg 2 = .reg 2) := by decide +kernel

/-- rmem: the last address inside the extent and the first outside, a cell of 32768 and a cell of 32767. -/
theorem wit_RmemReadsOneCell :
    resolve (.lit 4) (image [15, 32768, 0, 32767]) = .ok 4 ∧ (image [15, 32768, 0, 32767]).params.memWords.val ≤ 4 ∧
    resolve (.lit 3) (image [15, 32768, 0, 32767]) = .ok 3 ∧ 3 < (image [15, 32768, 0, 32767]).params.memWords.val ∧
    ((image [15, 32768, 0, 32767]).cell 3).toNat ≤ 32767 ∧ 32767 < ((image [15, 32768, 0, 32767]).cell 1).toNat ∧
    resolve (.lit 1) (image [15, 32768, 0, 32767]) = .ok 1 ∧ notRegister (.lit 9) ∧
    (Operand.invalid 40000 = .invalid 40000) ∧ (Operand.reg 0 = .reg 0) := by decide +kernel

/-- wmem: the last address inside the extent and the first outside, in a canonical memory. -/
theorem wit_WmemWritesOneCell :
    (image [16, 3, 72, 0]).mem.wf = true ∧ resolve (.lit 3) (image [16, 3, 72, 0]) = .ok 3 ∧
    resolve (.lit 72) (image [16, 3, 72, 0]) = .ok 72 ∧ 3 < (image [16, 3, 72, 0]).params.memWords.val ∧
    resolve (.lit 4) (image [16, 3, 72, 0]) = .ok 4 ∧ (image [16, 3, 72, 0]).params.memWords.val ≤ 4 ∧
    (Operand.invalid 40000 = .invalid 40000) := by decide +kernel

theorem wit_WmemThenRmemRoundTrip :
    (image [16, 3, 72, 0]).mem.wf = true ∧ resolve (.lit 3) (image [16, 3, 72, 0]) = .ok 3 ∧
    resolve (.lit 72) (image [16, 3, 72, 0]) = .ok 72 ∧ 3 < (image [16, 3, 72, 0]).params.memWords.val ∧
    (after (exec (.wmem (.lit 3) (.lit 72)) (image [16, 3, 72, 0]))).isSome = true := by decide +kernel

/-- Stores to the cell of the next opcode: 22; 21 with no operand to follow; 0; 19 with its operand in the last cell of the
extent, and 19 in the last cell itself. -/
theorem wit_StoresAreSeenByTheNextFetch :
    (image [16, 3, 22, 21]).mem.wf = true ∧ (image [16, 3, 22, 21]).pc.toNat ≤ 32768 ∧
    currentInstr (image [16, 3, 22, 21]) = some (.wmem (.lit 3) (.lit 22)) ∧
    resolve (.lit 3) (image [16, 3, 22, 21]) = .ok 3 ∧ resolve (.lit 22) (image [16, 3, 22, 21]) = .ok 22 ∧
    3 < (image [16, 3, 22, 21]).params.memWords.val ∧
    view (image [16, 3, 22, 21]) (fun t => t.pc) = some 3 ∧ 22 ≤ (22 : Word).toNat ∧
    currentInstr (image [16, 3, 0, 21]) = some (.wmem (.lit 3) (.lit 0)) ∧
    view (image [16, 3, 0, 21]) (fun t => t.pc) = some 3 ∧ (0 : Word).toNat = 0 ∧
    currentInstr (image [16, 3, 21, 0]) = some (.wmem (.lit 3) (.lit 21)) ∧
    view (image [16, 3, 21, 0]) (fun t => t.pc) = some 3 ∧ (21 : Word).toNat ≤ 21 ∧
    3 + Instr.arity .noop < (image [16, 3, 21, 0]).params.memWords.val ∧
    currentInstr (image [16, 3, 19, 0, 65]) = some (.wmem (.lit 3) (.lit 19)) ∧
    view (image [16, 3, 19, 0, 65]) (fun t => t.pc) = some 3 ∧ (19 : Word).toNat ≤ 21 ∧
    3 + Instr.arity (.out (.lit 65)) < (image [16, 3, 19, 0, 65]).params.memWords.val ∧
    currentInstr (image [16, 3, 19, 0]) = some (.wmem (.lit 3) (.lit 19)) ∧
    view (image [16, 3, 19, 0]) (fun t => t.pc) = some 3 ∧
    (image [16, 3, 19, 0]).params.memWords.val ≤ 3 + Instr.arity (.out (.lit 65)) := by decide +kernel

/-- The stored opcode is fetched by the next step with the operand after it: `out 65` (20_memory.md R79). -/
theorem test_stored_opcode_runs :
    ((after (step (image [16, 3, 19, 0, 65]))).bind (fun t => view t (fun u => (u.output, u.pc)))) = some ([65], 5) := by
  decide +kernel

theorem wit_OutAppendsOneCode :
    (Operand.invalid 40000 = .invalid 40000) ∧ resolve (.lit 32767) State.reset = .ok 32767 ∧
    State.reset.outReady = true ∧ { State.reset with outReady := false }.outReady = false := by decide +kernel

theorem wit_InTakesOneCharacter :
    notRegister (.lit 5) ∧ (Operand.reg 7 = .reg 7) ∧ State.reset.input = [] ∧
    { State.reset with input := [0] }.input = 0 :: [] := by decide

/-- OutputGrowsByTransfersOnly, InputIsTakenByTransfersOnly: a step with an output transfer, one with an
input transfer, and one with neither. -/
theorem wit_Transfers :
    (after (step (image [19, 65]))).isSome = true ∧ (outValid (image [19, 65]) && (image [19, 65]).outReady) = true ∧
    (after (step { image [20, 32768] with input := [103] })).isSome = true ∧
    (inReq { image [20, 32768] with input := [103] } && inValid { image [20, 32768] with input := [103] }) = true ∧
    (after (step (image [21]))).isSome = true ∧ outValid (image [21]) = false ∧ inReq (image [21]) = false := by
  decide +kernel

theorem wit_WaitingKeepsTheState :
    waiting (image [20, 32768]) = true ∧ waiting { image [19, 65] with outReady := false } = true := by decide +kernel

theorem wit_RegisterWritersFrame :
    Instr.add (.reg 0) (.lit 32767) (.lit 1) ∈ [Instr.add (.reg 0) (.lit 32767) (.lit 1)] ∧
    (after (exec (.add (.reg 0) (.lit 32767) (.lit 1)) State.reset)).isSome = true ∧
    Operand.reg 0 ≠ .reg 1 := by decide +kernel

theorem wit_StackInstructionsFrame :
    (after (exec (.push (.lit 7)) State.reset)).isSome = true ∧
    (after (exec (.pop (.reg 0)) (withStack State.reset [7]))).isSome = true ∧
    (after (exec (.call (.lit 7)) State.reset)).isSome = true ∧ (after (exec .ret State.reset)).isSome = true := by
  decide +kernel

/-- A store inside the extent, and a wmem that stores nothing because its address is an invalid word. -/
theorem wit_WmemFrame :
    (after (exec (.wmem (.lit 3) (.lit 72)) (image [0, 0, 0, 0]))).isSome = true ∧
    storeAddress (.wmem (.lit 3) (.lit 72)) (image [0, 0, 0, 0]) = some 3 ∧
    (after (exec (.wmem (.invalid 40000) (.lit 72)) (image [0]))).isSome = true ∧
    storeAddress (.wmem (.invalid 40000) (.lit 72)) (image [0]) = none := by decide +kernel

theorem wit_ControlInstructionsFrame :
    (after (exec .halt State.reset)).isSome = true ∧ (after (exec .noop State.reset)).isSome = true ∧
    (after (exec (.jmp (.lit 5)) State.reset)).isSome = true ∧
    (after (exec (.jt (.lit 1) (.lit 5)) State.reset)).isSome = true ∧
    (after (exec (.jf (.lit 1) (.lit 5)) State.reset)).isSome = true := by decide +kernel

theorem wit_PortInstructionsFrame :
    (after (exec (.out (.lit 65)) State.reset)).isSome = true ∧
    (after (exec (.inp (.reg 0)) { State.reset with input := [103] })).isSome = true := by decide +kernel

/-- OnlyNamedDestinationsAreWritten, OnlyFourInstructionsChangeTheStack, OnlyWmemWritesMemory. -/
theorem wit_WholeMachineRules :
    (after (exec (.push (.lit 7)) State.reset)).isSome = true ∧ destOperand (.push (.lit 7)) ≠ some (.reg 0) ∧
    State.reset.mem.wf = true ∧ (after (exec (.wmem (.lit 0) (.lit 7)) (image [0]))).isSome = true := by decide +kernel

theorem wit_StatusChangesOnlyAsListed :
    (image [0]).status = .running ∧ (after (step (image [0]))).isSome = true ∧ currentInstr (image [0]) = some .halt ∧
    currentInstr (image [18]) = some .ret ∧ (image [18]).stack = [] := by decide +kernel

/-- A legal state that is not reset, with a cell above 32767, and a step from it. -/
theorem wit_StepKeepsLegalStates :
    (image [1, 32770, 12345]).Inv ∧ (after (step (image [1, 32770, 12345]))).isSome = true := by decide +kernel

theorem wit_HostEventsKeepLegalStates :
    (image [21]).Inv ∧ (after (deliver (.load [0x15, 0x00]) (image [21]))).isSome = true ∧
    (after (deliver (.offer 32767) (image [21]))).isSome = true ∧ (after (deliver .reset (image [21]))).isSome = true ∧
    (after (deliver (.sinkReady false) (image [21]))).isSome = true := by decide +kernel

/-- The loaded image is reached from reset. -/
theorem wit_ReachableStatesAreLegal : Reachable State.reset (image [21]) :=
  .event (.load [0x15, 0x00]) State.reset _ .refl rfl

theorem wit_LoadPlacesLittleEndianWords :
    ([0x13, 0x00, 0x41, 0x00] : List Byte).length = 2 * 2 ∧ 2 ≤ 32768 := by decide

/-- One byte; 65538 bytes; a state with no stop requested. -/
theorem wit_LoadRefusesBadImages :
    ([0] : List Byte).length % 2 = 1 ∧ (List.replicate 65538 (0 : Byte)).length % 2 = 0 ∧
    32768 < (List.replicate 65538 (0 : Byte)).length / 2 ∧ State.reset.stopReq = false := by
  simp only [List.length_replicate]
  decide

end Sys2Proof.Tests
end

/-! ### The decoder takes what the encoder gives -/

namespace Sys2Proof

section
variable {op : MemWord} {ws rest : List MemWord} {i : Instr} {n : Nat}

theorem cons_eq_encode_append_of_opcode (hop : op.toNat = n) (hi : encode i = [BitVec.ofNat 16 n]) :
    op :: rest = encode i ++ rest := by
  simp [hi, ← hop]

theorem cons_eq_encode_append_of_decodeF1 {mk : Operand → Instr} (hop : op.toNat = n)
    (hmk : ∀ a, encode (mk a) = [BitVec.ofNat 16 n, a.word]) (h : decodeF1 op mk ws = .ok (i, rest)) :
    op :: ws = encode i ++ rest := by
  unfold decodeF1 at h
  split at h
  · cases h
    simp [hmk, ← hop, Operand.word_ofWord]
  · cases h

theorem cons_eq_encode_append_of_decodeF2 {mk : Operand → Operand → Instr} (hop : op.toNat = n)
    (hmk : ∀ a b, encode (mk a b) = [BitVec.ofNat 16 n, a.word, b.word]) (h : decodeF2 op mk ws = .ok (i, rest)) :
    op :: ws = encode i ++ rest := by
  unfold decodeF2 at h
  split at h
  · cases h
    simp [hmk, ← hop, Operand.word_ofWord]
  · cases h

theorem cons_eq_encode_append_of_decodeF3 {mk : Operand → Operand → Operand → Instr} (hop : op.toNat = n)
    (hmk : ∀ a b c, encode (mk a b c) = [BitVec.ofNat 16 n, a.word, b.word, c.word])
    (h : decodeF3 op mk ws = .ok (i, rest)) : op :: ws = encode i ++ rest := by
  unfold decodeF3 at h
  split at h
  · cases h
    simp [hmk, ← hop, Operand.word_ofWord]
  · cases h

/-- What the decoder takes from the words is the encoding of the instruction it answers, format by format
(30_encoding.md R93, R95). -/
theorem eq_encode_append_of_decodeWords (h : decodeWords ws = .ok (i, rest)) : ws = encode i ++ rest := by
  cases ws with
  | nil => cases h
  | cons op ws =>
    simp only [decodeWords] at h
    split at h
    case h_1 hop | h_19 hop | h_22 hop =>
      cases h
      exact cons_eq_encode_append_of_opcode hop rfl
    case h_3 hop | h_4 hop | h_7 hop | h_18 hop | h_20 hop | h_21 hop =>
      exact cons_eq_encode_append_of_decodeF1 hop (fun _ => rfl) h
    case h_2 hop | h_8 hop | h_9 hop | h_15 hop | h_16 hop | h_17 hop =>
      exact cons_eq_encode_append_of_decodeF2 hop (fun _ _ => rfl) h
    case h_5 hop | h_6 hop | h_10 hop | h_11 hop | h_12 hop | h_13 hop | h_14 hop =>
      exact cons_eq_encode_append_of_decodeF3 hop (fun _ _ _ => rfl) h
    case h_23 => cases h

end

end Sys2Proof

/-! ### Effects: what an instruction can do to the state, by kind -/

namespace Sys2Proof.Machine

/-- The instructions by the part of the state their effect may change, one group for each frame obligation. -/
inductive InstrGroup where
  /-- write the register operand a names -/
  | register
  /-- push or pop an entry -/
  | stack
  /-- store a cell -/
  | store
  /-- move the pc, or halt -/
  | control
  /-- transfer a character -/
  | port

/-- The group of an instruction. -/
def group : Instr → InstrGroup
  | .set .. | .eq .. | .gt .. | .add .. | .mult .. | .mod .. | .and .. | .or .. | .not .. | .rmem .. => .register
  | .push .. | .pop .. | .call .. | .ret => .stack
  | .wmem .. => .store
  | .halt | .noop | .jmp .. | .jt .. | .jf .. => .control
  | .out .. | .inp .. => .port

/-- The kinds of effect an instruction can have. `Completes` says for each of the 22 instructions what it computes;
`Effect` forgets how values are computed and keeps which parts of the state are written, and by which instruction. -/
inductive Effect (i : Instr) (s : State) : State → Prop
  | write (r : Fin 8) (v : Word) (hd : destOperand i = some (.reg r)) : Effect i s ((s.setReg r v).advance i.arity)
  | advance : Effect i s (s.advance i.arity)
  | jump (v : Word) : Effect i s (s.jump v)
  | hold : Effect i s s
  | halt (hi : i = .halt) : Effect i s (s.haltCore.advance i.arity)
  | haltRet (hi : i = .ret) (hs : s.stack = []) : Effect i s s.haltCore
  | push (a : Operand) (v : Word) (hi : i = .push a) (hf : s.stackFull = false) :
      Effect i s (State.advance { s with stack := s.stack ++ [zext16 v] } i.arity)
  | call (a : Operand) (v : Word) (hi : i = .call a) (hf : s.stackFull = false) :
      Effect i s (State.jump { s with stack := s.stack ++ [s.pc + 2] } v)
  | pop (r : Fin 8) (v : Word) (p : MemWord) (hi : i = .pop (.reg r)) (hp : s.stack.getLast? = some p) :
      Effect i s ((s.dropTop.setReg r v).advance i.arity)
  | ret (v : Word) (p : MemWord) (hi : i = .ret) (hp : s.stack.getLast? = some p) : Effect i s (s.dropTop.jump v)
  | store (a b : Operand) (addr v : Word) (hi : i = .wmem a b) (ha : resolve a s = .ok addr)
      (hb : resolve b s = .ok v) (hlt : addr.toNat < s.params.memWords.val) :
      Effect i s ((s.storeCell addr.toNat (zext16 v)).advance i.arity)
  | emit (a : Operand) (v : Word) (hi : i = .out a) : Effect i s ((s.outWrite v).advance i.arity)
  | take (r : Fin 8) (ch : Word) (rest : List Word) (hi : i = .inp (.reg r)) (hin : s.input = ch :: rest) :
      Effect i s ((State.setReg { s with input := rest, consumed := s.consumed + 1 } r ch).advance i.arity)
  | fault (r : Raise) : Effect i s (s.takeFault r)

/-- Every completed instruction has an effect of one of the kinds. -/
theorem Completes.effect {i : Instr} {s t : State} (h : Completes i s t) : Effect i s t := by
  cases i
  case set | not =>
    obtain ⟨_, r, -, rfl, rfl⟩ := h
    exact .write r _ rfl
  case eq | gt | add | mult | and | or =>
    obtain ⟨_, _, r, -, -, rfl, rfl⟩ := h
    exact .write r _ rfl
  case mod =>
    obtain ⟨_, _, r, -, -, -, rfl, rfl⟩ := h
    exact .write r _ rfl
  case rmem =>
    obtain ⟨_, v, r, -, -, -, -, rfl, rfl⟩ := h
    exact .write r v rfl
  case push a =>
    obtain ⟨v, -, hf, rfl⟩ := h
    exact .push a v rfl hf
  case call a =>
    obtain ⟨v, -, hf, rfl⟩ := h
    exact .call a v rfl hf
  case pop =>
    obtain ⟨p, v, r, hp, -, rfl, rfl⟩ := h
    exact .pop r v p rfl hp
  case ret =>
    obtain ⟨hs, rfl⟩ | ⟨p, v, hp, -, rfl⟩ := h
    · exact .haltRet rfl hs
    · exact .ret v p rfl hp
  case wmem a b =>
    obtain ⟨addr, v, ha, hb, hlt, rfl⟩ := h
    exact .store a b addr v rfl ha hb hlt
  case halt =>
    cases h
    exact .halt rfl
  case noop =>
    cases h
    exact .advance
  case jmp =>
    obtain ⟨v, -, rfl⟩ := h
    exact .jump v
  case jt | jf =>
    obtain ⟨_, -, ⟨-, v, -, rfl⟩ | ⟨-, rfl⟩⟩ := h
    · exact .jump v
    · exact .advance
  case out a =>
    obtain ⟨v, -, ⟨-, rfl⟩ | ⟨-, rfl⟩⟩ := h
    · exact .emit a v rfl
    · exact .hold
  case inp =>
    obtain ⟨r, rfl, ⟨-, rfl⟩ | ⟨ch, rest, hin, rfl⟩⟩ := h
    · exact .hold
    · exact .take r ch rest rfl hin

/-- Everything `exec` can do, by kind of effect. -/
theorem exec_effect {i : Instr} {s t : State} (h : exec i s = .next t) : Effect i s t := by
  rcases exec_cases h with hc | ⟨r, rfl⟩
  · exact hc.effect
  · exact .fault r

/-! ### What the effects leave unchanged -/

section
variable {i : Instr} {s t : State}

theorem Effect.params_eq (h : Effect i s t) : t.params = s.params := by
  cases h <;> rfl

theorem Effect.reg_of_ne_dest (h : Effect i s t) {r : Fin 8} (hd : destOperand i ≠ some (.reg r)) :
    t.reg r = s.reg r := by
  have ne_of_dest : ∀ r', destOperand i = some (.reg r') → r ≠ r' := by
    rintro r' h' rfl
    exact hd h'
  cases h
  case write r' v h' => exact s.reg_setReg_other r' r v (ne_of_dest r' h')
  case pop r' v p hi hp => exact s.dropTop.reg_setReg_other r' r v (ne_of_dest r' (hi ▸ rfl))
  case take r' ch rest hi hin => exact State.reg_setReg_other _ r' r ch (ne_of_dest r' (hi ▸ rfl))
  all_goals rfl

/-- Memory is as it was, or `wmem` stored a resolved word at a resolved address inside the extent. -/
theorem Effect.mem_cases (h : Effect i s t) :
    t.mem = s.mem ∨
    ∃ a b addr v, i = .wmem a b ∧ resolve a s = .ok addr ∧ resolve b s = .ok v ∧
      addr.toNat < s.params.memWords.val ∧ t.mem = s.mem.writeWord addr.toNat (zext16 v) := by
  cases h
  case store a b addr v hi ha hb hlt => exact .inr ⟨a, b, addr, v, hi, ha, hb, hlt, rfl⟩
  all_goals exact .inl rfl

theorem Effect.sameMemory (h : Effect i s t) (hg : group i ≠ .store) : sameMemory s t := by
  refine ⟨fun a => ?_, h.params_eq⟩
  obtain hm | ⟨_, _, _, _, rfl, -⟩ := h.mem_cases
  · rw [hm]
  · exact absurd rfl hg

/-- The stack is as it was, or a push or a call put an entry on a stack that was not full, or a pop or a ret took the
top entry. -/
theorem Effect.stack_cases (h : Effect i s t) :
    t.stack = s.stack ∨
    (∃ a e, (i = .push a ∧ (∃ v, e = zext16 v) ∨ i = .call a ∧ e = s.pc + 2) ∧ s.stackFull = false ∧
      t.stack = s.stack ++ [e]) ∨
    (∃ a e, (i = .pop a ∨ i = .ret) ∧ s.stack = t.stack ++ [e]) := by
  have top : ∀ p, s.stack.getLast? = some p → s.stack = s.stack.dropLast ++ [p] := fun p hp =>
    (List.dropLast_append_getLast? p hp).symm
  cases h
  case push a v hi hf => exact .inr (.inl ⟨a, _, .inl ⟨hi, v, rfl⟩, hf, rfl⟩)
  case call a v hi hf => exact .inr (.inl ⟨a, _, .inr ⟨hi, rfl⟩, hf, rfl⟩)
  case pop r v p hi hp => exact .inr (.inr ⟨.reg r, p, .inl hi, top p hp⟩)
  case ret v p hi hp => exact .inr (.inr ⟨.lit 0, p, .inr hi, top p hp⟩)
  all_goals exact .inl rfl

theorem Effect.stack_eq (h : Effect i s t) (hg : group i ≠ .stack) : t.stack = s.stack := by
  obtain hs | ⟨_, _, ⟨rfl, -⟩ | ⟨rfl, -⟩, -⟩ | ⟨_, _, rfl | rfl, -⟩ := h.stack_cases
  · exact hs
  all_goals exact absurd rfl hg

theorem Effect.output_eq (h : Effect i s t) (hi : ∀ a, i ≠ .out a) : t.output = s.output := by
  cases h
  case emit a v h' => exact absurd h' (hi a)
  all_goals rfl

theorem Effect.input_eq (h : Effect i s t) (hi : ∀ a, i ≠ .inp a) :
    t.input = s.input ∧ t.consumed = s.consumed := by
  cases h
  case take r ch rest h' hin => exact absurd h' (hi _)
  all_goals exact ⟨rfl, rfl⟩

/-- The pins are the host's: no instruction drives them. -/
theorem Effect.pins_eq (h : Effect i s t) : t.outReady = s.outReady ∧ t.stopReq = s.stopReq := by
  cases h <;> exact ⟨rfl, rfl⟩

theorem Effect.samePorts (h : Effect i s t) (hg : group i ≠ .port) : samePorts s t := by
  obtain ⟨hin, hcons⟩ := h.input_eq (by rintro a rfl; exact hg rfl)
  exact ⟨h.output_eq (by rintro a rfl; exact hg rfl), hin, hcons, h.pins_eq⟩

/-- The status and the record are as they were or the fault was entered, but for the two ways to halt. -/
theorem Effect.status_cases (h : Effect i s t) :
    statusFrame s t ∨ (i = .halt ∧ t = s.haltCore.advance 0) ∨ (i = .ret ∧ s.stack = [] ∧ t = s.haltCore) := by
  cases h
  case halt hi =>
    subst hi
    exact .inr (.inl ⟨rfl, rfl⟩)
  case haltRet hi hs => exact .inr (.inr ⟨hi, hs, rfl⟩)
  case fault r => exact .inl (.inr ⟨r.kind, r.info, rfl⟩)
  all_goals exact .inl (.inl ⟨rfl, rfl, rfl, rfl⟩)

theorem Effect.statusFrame (h : Effect i s t) (hhalt : i ≠ .halt) (hret : i ≠ .ret) : statusFrame s t := by
  obtain hs | ⟨hi, -⟩ | ⟨hi, -⟩ := h.status_cases
  · exact hs
  · exact absurd hi hhalt
  · exact absurd hi hret

/-- The pc stays (a wait, a fault, `ret` on an empty stack), moves behind the instruction, or is a resolved word. -/
theorem Effect.pc_cases (h : Effect i s t) :
    t.pc = s.pc ∨ t.pc = s.pc + BitVec.ofNat 16 i.length ∨ ∃ v : Word, t.pc = zext16 v := by
  cases h
  case hold | haltRet | fault => exact .inl rfl
  case jump v | call v _ _ | ret v _ _ _ => exact .inr (.inr ⟨v, rfl⟩)
  all_goals exact .inr (.inl rfl)

end

/-! ### The frames -/

/-- Settles O44: the ten instructions are those of the register group, and operand a is the destination of each. -/
theorem registerWritersFrame : Obligations.RegisterWritersFrame := by
  intro a b c i hi s t h
  have he := exec_effect h
  have hi' : destOperand i = some a ∧ group i = .register := by
    simp only [List.mem_cons, List.not_mem_nil, or_false] at hi
    rcases hi with rfl | rfl | rfl | rfl | rfl | rfl | rfl | rfl | rfl | rfl <;> exact ⟨rfl, rfl⟩
  obtain ⟨hd, hg⟩ := hi'
  refine ⟨fun r hr => he.reg_of_ne_dest (by simpa [hd] using hr), he.sameMemory (by simp [hg]),
    he.stack_eq (by simp [hg]), he.samePorts (by simp [hg]), he.statusFrame ?_ ?_⟩
  all_goals
    rintro rfl
    cases hg

/-- Settles O45: the stack changes as `Effect.stack_cases` lists, and only an empty-stack `ret` halts. -/
theorem stackInstructionsFrame : Obligations.StackInstructionsFrame := by
  intro a i hi s t h
  have he := exec_effect h
  have hi' : (∀ r, i ≠ .pop (.reg r) → destOperand i ≠ some (.reg r)) ∧ group i = .stack := by
    simp only [List.mem_cons, List.not_mem_nil, or_false] at hi
    rcases hi with rfl | rfl | rfl | rfl <;> simp [destOperand, group]
  obtain ⟨hd, hg⟩ := hi'
  refine ⟨fun r hr => he.reg_of_ne_dest (hd r hr), he.sameMemory (by simp [hg]), he.samePorts (by simp [hg]), ?_, ?_⟩
  · obtain hs | ⟨rfl, -⟩ | hret := he.status_cases
    · exact .inl hs
    · cases hg
    · exact .inr hret
  · obtain hs | ⟨_, e, -, -, hs⟩ | ⟨_, e, -, hs⟩ := he.stack_cases
    · exact .inl hs
    · exact .inr (.inl ⟨e, hs⟩)
    · exact .inr (.inr ⟨e, hs⟩)

theorem storeAddress_wmem {a b : Operand} {s : State} {addr : Word} (h : resolve a s = .ok addr) :
    storeAddress (.wmem a b) s = some addr.toNat := by
  simp [storeAddress, h]

/-- Settles O46: a store changes two bytes, those of the cell `storeAddress` names. -/
theorem wmemFrame : Obligations.WmemFrame := by
  intro a b s t h
  have he := exec_effect h
  refine ⟨fun r => he.reg_of_ne_dest nofun, he.stack_eq nofun, he.samePorts nofun, he.statusFrame nofun nofun,
    he.params_eq, ?_⟩
  obtain hm | ⟨a', b', addr, v, hi, ha, -, -, hm⟩ := he.mem_cases
  · rw [hm]
    exact ⟨fun _ _ _ _ _ => rfl, fun _ _ => rfl⟩
  · cases hi
    rw [hm, storeAddress_wmem ha]
    refine ⟨?_, nofun⟩
    rintro _ ⟨⟩ k hlo hhi
    exact Memory.read_writeWord_other _ _ _ _ hlo hhi

/-- Settles O47: the instructions of the control group write the pc alone, `halt` the status too. -/
theorem controlInstructionsFrame : Obligations.ControlInstructionsFrame := by
  intro a b i hi s t h
  have he := exec_effect h
  have hi' : destOperand i = none ∧ group i = .control := by
    simp only [List.mem_cons, List.not_mem_nil, or_false] at hi
    rcases hi with rfl | rfl | rfl | rfl | rfl <;> exact ⟨rfl, rfl⟩
  obtain ⟨hd, hg⟩ := hi'
  refine ⟨fun r => he.reg_of_ne_dest (by simp [hd]), he.sameMemory (by simp [hg]), he.stack_eq (by simp [hg]),
    he.samePorts (by simp [hg]), ?_⟩
  obtain hs | ⟨rfl, rfl⟩ | ⟨rfl, -⟩ := he.status_cases
  · exact .inl hs
  · exact .inr ⟨rfl, rfl⟩
  · cases hg

/-- Settles O48: `out` touches the output and `in` its destination and the input. -/
theorem portInstructionsFrame : Obligations.PortInstructionsFrame := by
  intro a s t
  constructor
  · intro h
    have he := exec_effect h
    obtain ⟨hin, hcons⟩ := he.input_eq nofun
    exact ⟨fun r => he.reg_of_ne_dest nofun, he.sameMemory nofun, he.stack_eq nofun, he.statusFrame nofun nofun,
      hin, hcons, he.pins_eq⟩
  · intro h
    have he := exec_effect h
    exact ⟨fun r hr => he.reg_of_ne_dest (by simpa [destOperand] using hr), he.sameMemory nofun, he.stack_eq nofun,
      he.statusFrame nofun nofun, he.output_eq nofun, he.pins_eq⟩

/-! ### Rules of the whole machine -/

theorem exec_set_reg_lit (r : Fin 8) (v : Word) (s : State) :
    exec (.set (.reg r) (.lit v)) s = .next ((s.setReg r v).advance 2) := rfl

/-- Settles O49: an effect writes the register its destination operand names, and `set` writes any. -/
theorem onlyNamedDestinationsAreWritten : Obligations.OnlyNamedDestinationsAreWritten := by
  refine ⟨fun i s t h r hd => (exec_effect h).reg_of_ne_dest hd, fun r v s => ?_⟩
  have hr : ((s.setReg r v).advance 2).reg r = v := s.reg_setReg_same r v
  exact ⟨_, exec_set_reg_lit r v s, hr, by rw [resolve_reg, hr]⟩

/-- Settles O50: the three cases of `Effect.stack_cases`. -/
theorem onlyFourInstructionsChangeTheStack : Obligations.OnlyFourInstructionsChangeTheStack := by
  intro i s t h
  obtain hs | ⟨a, e, hi, -, hs⟩ | hpop := (exec_effect h).stack_cases
  · exact .inl hs
  · exact .inr (.inl ⟨a, e, hi.imp And.left And.left, hs⟩)
  · exact .inr (.inr hpop)

/-! ### Everything a step can do -/

/-- The four ways a step can go: a final state stays, a requested stop stops, the fetch faults, or the fetched
instruction is executed (40_sequencer.md R122 to R125, R135). -/
inductive StepCase (s : State) : State → Prop
  | final (hs : s.status ≠ .running) : StepCase s s
  | stop (hs : s.status = .running) (hstop : s.params.hostStop = true) (hreq : s.stopReq = true) :
      StepCase s { s with status := .stopped }
  | fetchFault (r : Raise) (hs : s.fetching) (hi : fetchInstr s = .error r) : StepCase s (s.takeFault r)
  | run (i : Instr) (t : State) (hs : s.fetching) (hi : fetchInstr s = .ok i)
      (hx : exec i s = .next t) : StepCase s t

theorem beforeFetch_of_final {s : State} (h : s.status ≠ .running) : beforeFetch s = some s := by
  unfold beforeFetch
  split
  · contradiction
  · rfl

theorem beforeFetch_of_stop {s : State} (h : s.status = .running) (hstop : (s.params.hostStop && s.stopReq) = true) :
    beforeFetch s = some { s with status := .stopped } := by
  simp [beforeFetch, h, hstop]

theorem beforeFetch_of_fetching {s : State} (h : s.fetching) : beforeFetch s = none := by
  obtain ⟨hrun, hstop⟩ := h
  simp [beforeFetch, hrun, hstop]

theorem step_cases {s t : State} (h : step s = .next t) : StepCase s t := by
  unfold step at h
  by_cases hrun : s.status = .running
  · cases hstop : s.params.hostStop && s.stopReq
    · have hf : s.fetching := ⟨hrun, hstop⟩
      simp only [beforeFetch_of_fetching hf, runInstr] at h
      cases hi : fetchInstr s with
      | ok i =>
        rw [hi] at h
        exact .run i t hf hi h
      | error r =>
        rw [hi] at h
        cases h
        exact .fetchFault r hf hi
    · rw [beforeFetch_of_stop hrun hstop] at h
      cases h
      obtain ⟨hs, hq⟩ := Bool.and_eq_true_iff.1 hstop
      exact .stop hrun hs hq
  · rw [beforeFetch_of_final hrun] at h
    cases h
    exact .final hrun

/-- While the CORE fetches, the instruction it is at is the fetched one. -/
theorem currentInstr_of_fetching {s : State} (h : s.fetching) : currentInstr s = (fetchInstr s).toOption := by
  simp only [currentInstr, beforeFetch_of_fetching h]
  cases fetchInstr s <;> rfl

theorem currentInstr_of_stop {s : State} (h : s.status = .running)
    (hstop : (s.params.hostStop && s.stopReq) = true) : currentInstr s = none := by
  simp [currentInstr, beforeFetch_of_stop h hstop]

theorem exec_halt (s : State) : exec .halt s = .next (s.haltCore.advance 0) := rfl

theorem exec_ret_of_stack_nil {s : State} (h : s.stack = []) : exec .ret s = .next s.haltCore := by
  simp [exec, execRet, h]

/-- An instruction of a running CORE halts it exactly where it is a `halt` or a `ret` with an empty stack. -/
theorem exec_halted_iff {i : Instr} {s t : State} (hs : s.status = .running) (h : exec i s = .next t) :
    t.status = .halted ↔ i = .halt ∨ (i = .ret ∧ s.stack = []) := by
  constructor
  · intro ht
    obtain (⟨hsame, -⟩ | ⟨k, v, rfl⟩) | ⟨rfl, -⟩ | ⟨rfl, hnil, -⟩ := (exec_effect h).status_cases
    · rw [hsame, hs] at ht
      cases ht
    · cases ht
    · exact .inl rfl
    · exact .inr ⟨rfl, hnil⟩
  · rintro (rfl | ⟨rfl, hnil⟩)
    · cases (exec_halt s).symm.trans h
      rfl
    · cases (exec_ret_of_stack_nil hnil).symm.trans h
      rfl

/-- Only a host stop stops a running CORE, no instruction does. -/
theorem Effect.status_ne_stopped {i : Instr} {s t : State} (hs : s.status = .running) (h : Effect i s t) :
    t.status ≠ .stopped := by
  obtain (⟨hsame, -⟩ | ⟨k, v, rfl⟩) | ⟨-, rfl⟩ | ⟨-, -, rfl⟩ := h.status_cases
  · rw [hsame, hs]
    nofun
  all_goals nofun

/-- An instruction of a running CORE that ends FAULTED has only entered the fault. -/
theorem Effect.eq_faultedWith {i : Instr} {s t : State} (hs : s.status = .running) (h : Effect i s t)
    (ht : t.status = .faulted) : ∃ k v, t = s.faultedWith k v := by
  obtain (⟨hsame, -⟩ | hfault) | ⟨-, rfl⟩ | ⟨-, -, rfl⟩ := h.status_cases
  · rw [hsame, hs] at ht
    cases ht
  · exact hfault
  all_goals cases ht

/-- Settles O52, one case for each way a step can go. -/
theorem statusChangesOnlyAsListed : Obligations.StatusChangesOnlyAsListed := by
  intro s t hrun h
  cases step_cases h with
  | final hs => exact absurd hrun hs
  | stop hs hstop hreq =>
    rw [currentInstr_of_stop hs (by simp [hstop, hreq])]
    simp [hstop, hreq]
  | fetchFault r hs hi =>
    have hns : ¬ (s.params.hostStop = true ∧ s.stopReq = true) := by simpa using hs.2
    rw [currentInstr_of_fetching hs, hi]
    exact ⟨by simp [Except.toOption], by simpa using hns, fun _ => ⟨r.kind, r.info, rfl⟩⟩
  | run i t hs hi hx =>
    have he := exec_effect hx
    have hns : ¬ (s.params.hostStop = true ∧ s.stopReq = true) := by simpa using hs.2
    rw [currentInstr_of_fetching hs, hi]
    exact ⟨by simpa [Except.toOption] using exec_halted_iff hrun hx, iff_of_false (he.status_ne_stopped hrun) hns,
      he.eq_faultedWith hrun⟩

/-! ### A decoded instruction lies inside the extent -/

/-- A fetched instruction lies inside the extent, so the pc behind it is at most 32768 (10_state.md R34). -/
theorem pc_add_length_le_of_fetchInstr {s : State} {i : Instr} (h : fetchInstr s = .ok i) :
    s.pc.toNat + i.length ≤ s.params.memWords.val := by
  unfold fetchInstr at h
  split at h
  · rename_i j rest hd
    cases h
    have hlen := congrArg List.length (eq_encode_append_of_decodeWords hd)
    simp only [State.fetchWords, List.length_map, List.length_range, List.length_append, encode_length] at hlen
    have hpos : 1 ≤ i.length := Nat.le_add_right 1 i.arity
    omega
  · cases h

/-! ### The invariant, clause by clause -/

theorem zext16_toNat_le (v : Word) : (zext16 v).toNat ≤ 32768 := by
  have := v.isLt
  rw [zext16_toNat]
  omega

theorem add_toNat_le {p : MemWord} {n : Nat} (h : p.toNat + n ≤ 32768) : (p + BitVec.ofNat 16 n).toNat ≤ 32768 := by
  rw [BitVec.toNat_add, BitVec.toNat_ofNat]
  omega

theorem FaultKind.code_toNat_bounds (k : FaultKind) : 1 ≤ k.code.toNat ∧ k.code.toNat ≤ 9 := by
  cases k <;> decide

/-- The fault entry records one of the nine codes and the pc (60_exceptions.md R262). -/
theorem statusLegal_faultedWith (s : State) (k : FaultKind) (v : MemWord) : (s.faultedWith k v).statusLegal :=
  ⟨fun h => absurd rfl h, fun _ => ⟨k.code_toNat_bounds.1, k.code_toNat_bounds.2, rfl⟩, nofun⟩

section
variable {i : Instr} {s t : State}

/-- A store stays inside the extent and keeps the canonical form. -/
theorem Effect.memoryLegal (h : Effect i s t) (hs : s.memoryLegal) : t.memoryLegal := by
  obtain ⟨hwf, hbelow, himage⟩ := hs
  unfold State.memoryLegal
  rw [h.params_eq]
  obtain hm | ⟨_, _, addr, v, -, -, -, hlt, hm⟩ := h.mem_cases <;> rw [hm]
  · exact ⟨hwf, hbelow, himage⟩
  · exact ⟨Memory.wf_writeWord _ _ _ hwf, Memory.below_writeWord _ _ _ _ hlt hbelow, himage⟩

/-- A stored cell has bit 15 clear, so every cell with bit 15 set is one no store has touched (20_memory.md R69). -/
theorem Effect.highCellsFromImage (h : Effect i s t) (hwf : s.mem.wf = true) (hs : s.highCellsFromImage) :
    t.highCellsFromImage := by
  intro a ha hhigh
  unfold State.cell at hhigh ⊢
  rw [h.params_eq] at ha ⊢
  obtain hm | ⟨_, _, addr, v, -, -, -, -, hm⟩ := h.mem_cases <;> rw [hm] at hhigh ⊢
  · exact hs a ha hhigh
  · by_cases hk : a = addr.toNat
    · rw [hk, Memory.readWord_writeWord_same _ _ _ hwf, zext16_toNat] at hhigh
      omega
    · rw [Memory.readWord_writeWord_other _ _ _ _ hk] at hhigh ⊢
      exact hs a ha hhigh

theorem Effect.pcLegal (h : Effect i s t) (hs : s.pcLegal) (hfit : s.pc.toNat + i.length ≤ 32768) : t.pcLegal := by
  unfold State.pcLegal
  obtain hpc | hpc | ⟨v, hpc⟩ := h.pc_cases <;> rw [hpc]
  · exact hs
  · exact add_toNat_le hfit
  · exact zext16_toNat_le v

/-- A return address is a pc behind a fetched `call`, and an entry is added only where the stack is not full
(10_state.md R39, R40). -/
theorem Effect.stackLegal (h : Effect i s t) (hs : s.stackLegal) (hfit : s.pc.toNat + i.length ≤ 32768) :
    t.stackLegal := by
  obtain ⟨hent, hdepth⟩ := hs
  unfold State.stackLegal
  rw [h.params_eq]
  obtain heq | ⟨a, e, hi, hfull, heq⟩ | ⟨a, e, -, heq⟩ := h.stack_cases
  · rw [heq]
    exact ⟨hent, hdepth⟩
  · have he : e.toNat ≤ 32768 := by
      obtain ⟨-, v, rfl⟩ | ⟨rfl, rfl⟩ := hi
      · exact zext16_toNat_le v
      · exact add_toNat_le (n := 2) hfit
    have hroom : s.params.stackDepth ≠ some s.stack.length := fun hd => by
      simp [(stackFull_iff s).2 hd] at hfull
    rw [heq]
    refine ⟨by simpa [or_imp, forall_and] using ⟨hent, he⟩, fun d hd => ?_⟩
    have hle := hdepth d hd
    have hne : s.stack.length ≠ d := fun hl => hroom (hl ▸ hd)
    rw [List.length_append, List.length_singleton]
    omega
  · rw [heq] at hent hdepth
    refine ⟨fun x hx => hent x (List.mem_append_left _ hx), fun d hd => ?_⟩
    have hle := hdepth d hd
    rw [List.length_append] at hle
    omega

theorem Effect.statusLegal (h : Effect i s t) (hrun : s.status = .running) (hs : s.statusLegal) : t.statusLegal := by
  have hempty := hs.1 (by simp [hrun])
  obtain (⟨hstat, hcode, hfpc, hinfo⟩ | ⟨k, v, rfl⟩) | ⟨-, rfl⟩ | ⟨-, -, rfl⟩ := h.status_cases
  · unfold State.statusLegal
    rw [hstat, hcode, hfpc, hinfo, hrun]
    exact ⟨fun _ => hempty, nofun, nofun⟩
  · exact statusLegal_faultedWith s k v
  · exact ⟨fun _ => hempty, nofun, nofun⟩
  · exact ⟨fun _ => hempty, nofun, nofun⟩

/-- An instruction that fits below 32768 keeps the invariant of a running CORE. -/
theorem Effect.inv (h : Effect i s t) (hrun : s.status = .running) (hfit : s.pc.toNat + i.length ≤ 32768)
    (hs : s.Inv) : t.Inv := by
  obtain ⟨hmem, hhigh, hpc, hstack, hstatus⟩ := hs
  exact ⟨h.memoryLegal hmem, h.highCellsFromImage hmem.1 hhigh, h.pcLegal hpc hfit, h.stackLegal hstack hfit,
    h.statusLegal hrun hstatus⟩

theorem inv_takeFault (r : Raise) (hs : s.Inv) : (s.takeFault r).Inv := by
  obtain ⟨hmem, hhigh, hpc, hstack, -⟩ := hs
  exact ⟨hmem, hhigh, hpc, hstack, statusLegal_faultedWith s r.kind r.info⟩

theorem step_inv (hs : s.Inv) (h : step s = .next t) : t.Inv := by
  cases step_cases h with
  | final => exact hs
  | stop hrun hstop hreq =>
    obtain ⟨hmem, hhigh, hpc, hstack, hstatus⟩ := hs
    exact ⟨hmem, hhigh, hpc, hstack, fun _ => hstatus.1 (by simp [hrun]), nofun, fun _ => hstop⟩
  | fetchFault r => exact inv_takeFault r hs
  | run i t hf hi hx =>
    have hfit := pc_add_length_le_of_fetchInstr hi
    have hext := s.params.memWords.isLt
    exact (exec_effect hx).inv hf.1 (by omega) hs

end

/-- Settles O55: a fetched instruction fits in the extent, so its effect keeps each clause of the invariant. -/
theorem stepKeepsLegalStates : Obligations.StepKeepsLegalStates := fun _ _ hs h => step_inv hs h

/-! ### Reset, host events and reachable states -/

/-- A reset is legal as soon as the image is: it is memory's content and every other field starts empty. -/
theorem inv_applyReset {s : State} (hwf : s.params.image.wf = true)
    (hbelow : s.params.image.below (2 * s.params.memWords.val) = true) : s.applyReset.Inv :=
  ⟨⟨hwf, hbelow, hwf, hbelow⟩, fun _ _ _ => rfl, Nat.zero_le _, ⟨nofun, fun _ _ => Nat.zero_le _⟩,
    fun _ => ⟨rfl, rfl, rfl⟩, nofun, nofun⟩

theorem inv_reset : State.reset.Inv := inv_applyReset (s := State.reset) rfl rfl

/-- An accepted image is canonical and inside the extent it fixes. -/
theorem inv_of_loadImage {s t : State} {bytes : List Byte} (h : loadImage s bytes = .next t) : t.Inv := by
  unfold loadImage at h
  split at h
  · cases h
  · split at h
    · cases h
      have hfit : 0 + bytes.length ≤ 2 * (bytes.length / 2) := by omega
      exact inv_applyReset (Memory.wf_ofBytes bytes) (Memory.below_ofBytes bytes 0 _ hfit)
    · cases h

/-- Every host event keeps the invariant: a reset and a load begin anew, the others change fields it does not read. -/
theorem deliver_inv {e : HostEvent} {s t : State} (hs : s.Inv) (h : deliver e s = .next t) : t.Inv := by
  cases e with
  | reset =>
    obtain ⟨⟨-, -, hwf, hbelow⟩, -⟩ := hs
    cases h
    exact inv_applyReset hwf hbelow
  | load bytes => exact inv_of_loadImage h
  | offer code =>
    simp only [deliver, offerChar] at h
    split at h <;> cases h
    exact hs
  | sinkReady ready =>
    cases h
    exact hs
  | stopRequest asserted =>
    simp only [deliver, driveStop] at h
    split at h <;> cases h
    exact hs

/-- Settles O57, by induction on the run. -/
theorem reachableStatesAreLegal : Obligations.ReachableStatesAreLegal := by
  intro s h
  induction h with
  | refl => exact inv_reset
  | step t u _ hstep ih => exact step_inv ih hstep
  | event e t u _ hev ih => exact deliver_inv ih hev

/-! ### Codes -/

theorem FaultKind.code_injective : Function.Injective FaultKind.code := by
  intro k k'
  cases k <;> cases k' <;> decide

/-- Settles O53: the codes are read off their definitions. -/
theorem statusAndCauseCodes : Obligations.StatusAndCauseCodes :=
  ⟨rfl, rfl, fun _ _ h => FaultKind.code_injective h⟩

end Sys2Proof.Machine

/-! ### Memory obligations (20_memory.md) -/

namespace Sys2Proof

/-! #### The decoder answers what the encoder wrote -/

theorem decodeF1_word {mk : Operand → Instr} {a : Operand} {rest : List MemWord}
    (h : [a].all Operand.wf = true) : decodeF1 (opcodeWord (mk a)) mk (a.word :: rest) = .ok (mk a, rest) := by
  have ha : a.wf = true := by simpa using h
  simp [decodeF1, Operand.ofWord_word ha]

theorem decodeF2_words {mk : Operand → Operand → Instr} {a b : Operand} {rest : List MemWord}
    (h : [a, b].all Operand.wf = true) :
    decodeF2 (opcodeWord (mk a b)) mk (a.word :: b.word :: rest) = .ok (mk a b, rest) := by
  obtain ⟨ha, hb⟩ : a.wf = true ∧ b.wf = true := by simpa using h
  simp [decodeF2, Operand.ofWord_word ha, Operand.ofWord_word hb]

theorem decodeF3_words {mk : Operand → Operand → Operand → Instr} {a b c : Operand}
    {rest : List MemWord} (h : [a, b, c].all Operand.wf = true) :
    decodeF3 (opcodeWord (mk a b c)) mk (a.word :: b.word :: c.word :: rest) = .ok (mk a b c, rest) := by
  obtain ⟨ha, hb, hc⟩ : a.wf = true ∧ b.wf = true ∧ c.wf = true := by simpa using h
  simp [decodeF3, Operand.ofWord_word ha, Operand.ofWord_word hb, Operand.ofWord_word hc]

/-- The words of a well-formed instruction decode to it, format by format (30_encoding.md R93, R95). -/
theorem decodeWords_encode_append {i : Instr} (h : i.wf = true) (rest : List MemWord) :
    decodeWords (encode i ++ rest) = .ok (i, rest) := by
  cases i
  case halt | ret | noop => rfl
  case push | pop | jmp | call | out | inp => exact decodeF1_word h
  case set | jt | jf | not | rmem | wmem => exact decodeF2_words h
  case eq | gt | add | mult | mod | and | or => exact decodeF3_words h

/-- Words are read back from their bytes, and what follows them is read on its own (20_memory.md R63). -/
theorem wordsOfBytes_bytesOfWords_append (ws : List MemWord) (rest : List Byte) :
    wordsOfBytes (bytesOfWords ws ++ rest) = ws ++ wordsOfBytes rest := by
  induction ws with
  | nil => rfl
  | cons w ws ih => simp [bytesOfWords, wordsOfBytes, ih, Machine.wordOfBytes_bytes]

theorem drop_encodeBytes_append (i : Instr) (rest : List Byte) :
    (encodeBytes i ++ rest).drop (2 * i.length) = rest :=
  List.drop_left' (by simp [encodeBytes])

/-- Settles O2: the bytes are read as the words of the encoding, which decode to the instruction. -/
theorem encodedBytesDecode : Obligations.EncodedBytesDecode := by
  intro i rest hi
  have hwords : decodeWords (wordsOfBytes (encodeBytes i ++ rest)) = .ok (i, wordsOfBytes rest) := by
    rw [encodeBytes, wordsOfBytes_bytesOfWords_append]
    exact decodeWords_encode_append hi _
  simp only [decodeBytes, hwords, drop_encodeBytes_append]

/-! #### What the decoder makes of an opcode in the catalog -/

/-- The two answers to an opcode of arity `n` before the words `ws`: too few words are missing operands, else the first
`n` words are classed as the operands of an instruction with that opcode (40_sequencer.md R125). -/
inductive DecodesTo (op : MemWord) (n : Nat) (ws : List MemWord) : Except DecodeError (Instr × List MemWord) → Prop
  | missing (h : ws.length < n) : DecodesTo op n ws (.error (.missingOperands op))
  | instr (i : Instr) (h : n ≤ ws.length) (hop : opcodeWord i = op)
      (hargs : i.operands = (ws.take n).map Operand.ofWord) : DecodesTo op n ws (.ok (i, ws.drop n))

section
variable {op : MemWord} (ws : List MemWord)

theorem decodesTo_of_operands_nil {i : Instr} (hop : opcodeWord i = op) (hargs : i.operands = []) :
    DecodesTo op 0 ws (.ok (i, ws)) :=
  .instr i (Nat.zero_le _) hop hargs

theorem decodeF1_decodesTo {mk : Operand → Instr} (hop : ∀ a, opcodeWord (mk a) = op)
    (hargs : ∀ a, (mk a).operands = [a]) : DecodesTo op 1 ws (decodeF1 op mk ws) := by
  match ws with
  | [] => exact .missing (by simp)
  | a :: ws => exact .instr _ (by simp) (hop _) (hargs _)

theorem decodeF2_decodesTo {mk : Operand → Operand → Instr} (hop : ∀ a b, opcodeWord (mk a b) = op)
    (hargs : ∀ a b, (mk a b).operands = [a, b]) : DecodesTo op 2 ws (decodeF2 op mk ws) := by
  match ws with
  | [] | [_] => exact .missing (by simp)
  | a :: b :: ws => exact .instr _ (by simp) (hop _ _) (hargs _ _)

theorem decodeF3_decodesTo {mk : Operand → Operand → Operand → Instr}
    (hop : ∀ a b c, opcodeWord (mk a b c) = op) (hargs : ∀ a b c, (mk a b c).operands = [a, b, c]) :
    DecodesTo op 3 ws (decodeF3 op mk ws) := by
  match ws with
  | [] | [_] | [_, _] => exact .missing (by simp)
  | a :: b :: c :: ws => exact .instr _ (by simp) (hop _ _ _) (hargs _ _ _)

theorem ofNat_eq_of_toNat_eq {n : Nat} (h : op.toNat = n) : BitVec.ofNat 16 n = op := by
  simp [← h]

/-- An opcode of the catalog takes as many operand words as the arity column says (30_encoding.md R95). -/
theorem decodeWords_decodesTo (h : op.toNat ≤ 21) :
    DecodesTo op (Machine.catalogArity op.toNat) ws (decodeWords (op :: ws)) := by
  simp only [decodeWords]
  split
  case h_1 hop | h_19 hop | h_22 hop =>
    rw [hop]
    exact decodesTo_of_operands_nil ws (ofNat_eq_of_toNat_eq hop) rfl
  case h_3 hop | h_4 hop | h_7 hop | h_18 hop | h_20 hop | h_21 hop =>
    rw [hop]
    exact decodeF1_decodesTo ws (fun _ => ofNat_eq_of_toNat_eq hop) (fun _ => rfl)
  case h_2 hop | h_8 hop | h_9 hop | h_15 hop | h_16 hop | h_17 hop =>
    rw [hop]
    exact decodeF2_decodesTo ws (fun _ _ => ofNat_eq_of_toNat_eq hop) (fun _ _ => rfl)
  case h_5 hop | h_6 hop | h_10 hop | h_11 hop | h_12 hop | h_13 hop | h_14 hop =>
    rw [hop]
    exact decodeF3_decodesTo ws (fun _ _ _ => ofNat_eq_of_toNat_eq hop) (fun _ _ _ => rfl)
  case h_23 =>
    simp only [imp_false] at *
    omega

/-- Above the catalog the opcode is rejected before any operand is looked at (30_encoding.md R97). -/
theorem decodeWords_of_opcode_ge (h : 22 ≤ op.toNat) : decodeWords (op :: ws) = .error (.unknownOpcode op) := by
  simp only [decodeWords]
  split
  case h_23 => rfl
  all_goals omega

end

theorem eq_halt_of_opcodeWord_eq_zero {i : Instr} (h : opcodeWord i = 0) : i = .halt := by
  cases i
  case halt => rfl
  all_goals simp [opcodeWord] at h

end Sys2Proof

namespace Sys2Proof.Machine

/-! #### Fetch: the window and its three outcomes -/

theorem currentInstr_eq_some {s : State} {i : Instr} :
    currentInstr s = some i ↔ s.fetching ∧ fetchInstr s = .ok i := by
  by_cases hrun : s.status = .running
  · cases hstop : s.params.hostStop && s.stopReq
    · have hf : s.fetching := ⟨hrun, hstop⟩
      rw [currentInstr_of_fetching hf, and_iff_right hf]
      cases fetchInstr s <;> simp [Except.toOption]
    · simp [currentInstr_of_stop hrun hstop, hstop]
  · simp [currentInstr, beforeFetch_of_final hrun, hrun]

theorem step_of_fetching {s : State} (h : s.fetching) : step s = runInstr s := by
  simp [step, beforeFetch_of_fetching h]

theorem step_of_fetchInstr_ok {s : State} {i : Instr} (hf : s.fetching) (hi : fetchInstr s = .ok i) :
    step s = exec i s := by
  simp [step_of_fetching hf, runInstr, hi]

theorem step_of_fetchInstr_error {s : State} {r : Raise} (hf : s.fetching) (hr : fetchInstr s = .error r) :
    step s = .next (s.takeFault r) := by
  simp [step_of_fetching hf, runInstr, hr]

theorem catalogArity_le_three {n : Nat} (h : n ≤ 21) : catalogArity n ≤ 3 := by
  revert n
  decide

theorem fetchInstr_of_decodeWords_ok {s : State} {i : Instr} {rest : List MemWord}
    (h : decodeWords s.fetchWords = .ok (i, rest)) : fetchInstr s = .ok i := by
  simp [fetchInstr, h]

theorem fetchInstr_of_decodeWords_error {s : State} {e : DecodeError} (h : decodeWords s.fetchWords = .error e) :
    fetchInstr s = .error (fetchRaise s e) := by
  simp [fetchInstr, h]

theorem fetchWords_of_pc_ge {s : State} (h : s.params.memWords.val ≤ s.pc.toNat) : s.fetchWords = [] := by
  simp [State.fetchWords, Nat.sub_eq_zero_of_le h]

/-- The cells of the extent after the opcode, at most the three operand words of the longest instruction. -/
def State.operandWindow (s : State) : List MemWord :=
  cellsFrom s (s.pc.toNat + 1) (min 3 (s.params.memWords.val - (s.pc.toNat + 1)))

/-- Inside the extent the fetch window is the opcode cell and the operand window. -/
theorem fetchWords_of_pc_lt {s : State} (h : s.pc.toNat < s.params.memWords.val) :
    s.fetchWords = s.cell s.pc.toNat :: s.operandWindow := by
  have hlen : min 4 (s.params.memWords.val - s.pc.toNat) =
      min 3 (s.params.memWords.val - (s.pc.toNat + 1)) + 1 := by omega
  simp [State.fetchWords, State.operandWindow, cellsFrom, hlen, List.range_succ_eq_map, Nat.add_assoc, Nat.add_comm 1]

@[simp] theorem operandWindow_length (s : State) :
    s.operandWindow.length = min 3 (s.params.memWords.val - (s.pc.toNat + 1)) := by
  simp [State.operandWindow, cellsFrom]

theorem take_cellsFrom {n m : Nat} (h : n ≤ m) (s : State) (a : Nat) :
    (cellsFrom s a m).take n = cellsFrom s a n := by
  simp [cellsFrom, ← List.map_take, List.take_range, Nat.min_eq_left h]

theorem take_operandWindow {s : State} {n : Nat} (h : n ≤ s.operandWindow.length) :
    s.operandWindow.take n = cellsFrom s (s.pc.toNat + 1) n :=
  take_cellsFrom (operandWindow_length s ▸ h) s _

section
variable {s : State} {op : MemWord}

/-- A fetch outside the extent faults at the pc (40_sequencer.md R124). -/
theorem step_of_pc_ge (hf : s.fetching) (h : s.params.memWords.val ≤ s.pc.toNat) :
    step s = .next (s.faultedWith .invalidMemoryAccess s.pc) :=
  have hd : decodeWords s.fetchWords = .error .noOpcodeWord := by rw [fetchWords_of_pc_ge h]; rfl
  step_of_fetchInstr_error hf (fetchInstr_of_decodeWords_error hd)

variable (hf : s.fetching) (hpc : s.pc.toNat < s.params.memWords.val) (hcell : s.cell s.pc.toNat = op)
include hpc hcell

/-- An opcode of the catalog is decoded against the operand window. -/
theorem decodeWords_fetchWords_decodesTo (hop : op.toNat ≤ 21) :
    DecodesTo op (catalogArity op.toNat) s.operandWindow (decodeWords s.fetchWords) := by
  rw [fetchWords_of_pc_lt hpc, hcell]
  exact decodeWords_decodesTo _ hop

include hf

/-- Opcode words above the catalog fault (40_sequencer.md R125). -/
theorem step_of_opcode_ge (hop : 22 ≤ op.toNat) : step s = .next (s.faultedWith .unknownOpcode op) := by
  have hd : decodeWords s.fetchWords = .error (.unknownOpcode op) := by
    rw [fetchWords_of_pc_lt hpc, hcell]
    exact decodeWords_of_opcode_ge _ hop
  exact step_of_fetchInstr_error hf (fetchInstr_of_decodeWords_error hd)

/-- An instruction that the extent cuts off faults (40_sequencer.md R125). -/
theorem step_of_operands_outside (hop : op.toNat ≤ 21)
    (hext : s.params.memWords.val ≤ s.pc.toNat + catalogArity op.toNat) :
    step s = .next (s.faultedWith .invalidArguments op) := by
  have hdec := decodeWords_fetchWords_decodesTo hpc hcell hop
  generalize hd : decodeWords s.fetchWords = r at hdec
  cases hdec with
  | missing => exact step_of_fetchInstr_error hf (fetchInstr_of_decodeWords_error hd)
  | instr i hlen =>
    rw [operandWindow_length] at hlen
    omega

/-- An instruction inside the extent is executed with the operand words that follow its opcode (40_sequencer.md R125,
R135). -/
theorem step_of_operands_inside (hop : op.toNat ≤ 21)
    (hext : s.pc.toNat + catalogArity op.toNat < s.params.memWords.val) :
    ∃ i : Instr, opcodeWord i = op ∧
      i.operands = (cellsFrom s (s.pc.toNat + 1) (catalogArity op.toNat)).map Operand.ofWord ∧ step s = exec i s := by
  have hdec := decodeWords_fetchWords_decodesTo hpc hcell hop
  generalize hd : decodeWords s.fetchWords = r at hdec
  cases hdec with
  | missing hlen =>
    have harity := catalogArity_le_three hop
    rw [operandWindow_length] at hlen
    omega
  | instr i hlen hi hargs =>
    rw [take_operandWindow hlen] at hargs
    exact ⟨i, hi, hargs, step_of_fetchInstr_ok hf (fetchInstr_of_decodeWords_ok hd)⟩

end

/-! #### Stores -/

/-- A store inside the extent whose operands resolve completes (47_memory_ops.md R231). -/
theorem exec_wmem {a b : Operand} {addr v : Word} {s : State} (ha : resolve a s = .ok addr)
    (hb : resolve b s = .ok v) (hlt : addr.toNat < s.params.memWords.val) :
    exec (.wmem a b) s = .next ((s.storeCell addr.toNat (zext16 v)).advance 2) := by
  have hw : memWrite s (zext16 addr) (zext16 v) = .ok (s.storeCell addr.toNat (zext16 v)) :=
    memWrite_eq_ok.2 (by simp [zext16_toNat, hlt])
  simp [exec, execWmem, ha, hb, hw]

/-- A stored 15-bit value leaves bit 15 of its cell clear (20_memory.md R69). -/
theorem extractLsb'_15_zext16 (v : Word) : (zext16 v).extractLsb' 15 1 = 0 := by
  apply BitVec.eq_of_toNat_eq
  have hv := v.isLt
  rw [BitVec.extractLsb'_toNat, zext16_toNat, Nat.shiftRight_eq_div_pow]
  simp
  omega

/-- Settles O38: a `wmem` only stores and advances, so the CORE fetches from the memory it leaves, by the three outcomes
of a fetch inside the extent. -/
theorem storesAreSeenByTheNextFetch : Obligations.StoresAreSeenByTheNextFetch := by
  intro a b addr v s t hwf hpc hcur ha hb hlt hstep
  obtain ⟨hf, hi⟩ := currentInstr_eq_some.1 hcur
  rw [step_of_fetchInstr_ok hf hi, exec_wmem ha hb hlt] at hstep
  cases hstep
  set t := (s.storeCell addr.toNat (zext16 v)).advance 2 with ht
  have htf : t.fetching := hf
  have hcell : t.cell addr.toNat = zext16 v := Memory.readWord_writeWord_same _ _ _ hwf
  have hpc' : t.pc.toNat = s.pc.toNat + 3 := by
    rw [ht, State.advance_pc, State.storeCell_pc, BitVec.toNat_add, BitVec.toNat_ofNat]
    omega
  have hop : (zext16 v).toNat = v.toNat := zext16_toNat v
  refine ⟨hpc', hcell, fun he hv => ?_, fun he hv hext => ?_, fun he hv hext => ?_, fun he hv => ?_⟩
  all_goals rw [he] at hlt hcell
  · exact step_of_opcode_ge htf hlt hcell (hop.symm ▸ hv)
  · exact step_of_operands_outside htf hlt hcell (hop.symm ▸ hv) (hop.symm ▸ hext)
  · rw [← hop] at hv hext ⊢
    exact step_of_operands_inside htf hlt hcell hv hext
  · have hzero : zext16 v = 0 := BitVec.eq_of_toNat_eq (hop.trans hv)
    rw [hzero] at hcell
    obtain ⟨i, hi, -, hx⟩ := step_of_operands_inside htf hlt hcell (Nat.zero_le _) hlt
    rw [hx, eq_halt_of_opcodeWord_eq_zero hi]
    rfl

/-- Settles O51: the memory cases of an effect, read cell by cell. -/
theorem onlyWmemWritesMemory : Obligations.OnlyWmemWritesMemory := by
  intro i s t hwf h
  obtain hm | ⟨a, b, addr, v, hi, ha, hb, hlt, hm⟩ := (exec_effect h).mem_cases
  · exact .inl hm
  · have hcell : t.cell addr.toNat = zext16 v := by
      rw [State.cell, hm, Memory.readWord_writeWord_same _ _ _ hwf]
    refine .inr ⟨a, b, addr, v, hi, ha, hb, hlt, hcell, ?_, fun k hk => ?_⟩
    · rw [hcell, extractLsb'_15_zext16]
    · rw [State.cell, hm, Memory.readWord_writeWord_other _ _ _ _ hk, State.cell]

/-! #### Loads -/

theorem loadImage_of_odd {bytes : List Byte} (h : bytes.length % 2 = 1) (s : State) :
    loadImage s bytes = .refused .imageOddLength := by
  simp [loadImage, h]

theorem loadImage_of_too_long {bytes : List Byte} (heven : bytes.length % 2 = 0) (h : 32768 < bytes.length / 2)
    (s : State) : loadImage s bytes = .refused .imageTooLong := by
  simp [loadImage, heven, h]

/-- An accepted image constructs the CORE with it (20_memory.md R63, 70_reset_and_hazards.md R292). -/
theorem loadImage_of_even {bytes : List Byte} (heven : bytes.length % 2 = 0) (h : bytes.length / 2 ≤ 32768)
    (s : State) : loadImage s bytes = .next { s with params := s.params.withImage bytes h }.applyReset := by
  simp [loadImage, heven, h]

/-- Cell i of an image is its bytes 2i and 2i + 1, little-endian (20_memory.md R63). -/
theorem Memory.readWord_ofBytes_toNat (bytes : List Byte) (i : Nat) :
    ((Memory.ofBytes 0 bytes).readWord i).toNat =
      (bytes.getD (2 * i) 0).toNat + 256 * (bytes.getD (2 * i + 1) 0).toNat := by
  have hbyte : ∀ j, (Memory.ofBytes 0 bytes).read j = bytes.getD j 0 := fun j => by
    have hread := Memory.read_ofBytes bytes 0 j
    rwa [Nat.zero_add] at hread
  rw [Memory.readWord, wordOfBytes_toNat, hbyte, hbyte]

/-- Settles O59: the constructed CORE has the image for its memory. -/
theorem loadPlacesLittleEndianWords : Obligations.LoadPlacesLittleEndianWords := by
  intro s bytes k hlen hk
  have hhalf : bytes.length / 2 = k := by omega
  have hload := loadImage_of_even (bytes := bytes) (by omega) (hhalf ▸ hk) s
  exact ⟨_, hload, hhalf, rfl, rfl, fun i _ => Memory.readWord_ofBytes_toNat bytes i⟩

/-- Settles O60: the empty image has no cell, so its first fetch is outside the extent. -/
theorem loadRefusesBadImages : Obligations.LoadRefusesBadImages := by
  refine ⟨fun s bytes hodd => loadImage_of_odd hodd s, fun s bytes heven hlong => loadImage_of_too_long heven hlong s,
    fun s hstop => ?_⟩
  have hfits : ([] : List Byte).length / 2 ≤ 32768 := Nat.zero_le _
  exact ⟨_, loadImage_of_even rfl hfits s, step_of_pc_ge ⟨rfl, by simp [hstop]⟩ le_rfl⟩

end Sys2Proof.Machine

/-! ### Encoding obligations (30_encoding.md) -/

namespace Sys2Proof

/-! #### Decoding inverts encoding -/

/-- What the decoder answers is well-formed: its operands are classes of words (30_encoding.md R92). -/
theorem wf_of_decodeWords {ws rest : List MemWord} {i : Instr} (h : decodeWords ws = .ok (i, rest)) :
    i.wf = true := by
  cases ws with
  | nil => cases h
  | cons op ws =>
    by_cases hop : op.toNat ≤ 21
    · have hdec := decodeWords_decodesTo ws hop
      rw [h] at hdec
      cases hdec with
      | instr _ _ _ hargs => simp [Instr.wf, hargs, Operand.wf_ofWord, -List.map_take]
    · rw [decodeWords_of_opcode_ge ws (by omega)] at h
      cases h

/-- Settles O1: one direction per inverse. -/
theorem decodeInvertsEncode : Obligations.DecodeInvertsEncode := by
  intro ws rest i
  constructor
  · intro h
    exact ⟨wf_of_decodeWords h, eq_encode_append_of_decodeWords h⟩
  · rintro ⟨hwf, rfl⟩
    exact decodeWords_encode_append hwf rest

/-! #### Opcodes -/

/-- A catalog opcode has two answers, an instruction or missing operands (30_encoding.md R97). -/
theorem decodeWords_ne_unknownOpcode {op : MemWord} (h : op.toNat ≤ 21) (op' : MemWord) (ws : List MemWord) :
    decodeWords (op :: ws) ≠ .error (.unknownOpcode op') := by
  intro hd
  have hdec := decodeWords_decodesTo ws h
  rw [hd] at hdec
  cases hdec

/-- Settles O3: the decoder's answers on both sides of the catalog's end, and the step of a rejected opcode. -/
theorem opcodesAbove21AreUnknown : Obligations.OpcodesAbove21AreUnknown :=
  ⟨fun _ ws hop => decodeWords_of_opcode_ge ws hop,
    fun _ op' ws hop => decodeWords_ne_unknownOpcode hop op' ws,
    fun _ hf hpc hop => Machine.step_of_opcode_ge hf hpc rfl hop⟩

/-! #### Operand words -/

section
variable {w : MemWord}

theorem Operand.ofWord_of_toNat_le (h : w.toNat ≤ 32767) : Operand.ofWord w = .lit (BitVec.ofNat 15 w.toNat) := by
  simp [Operand.ofWord, h]

theorem Operand.ofWord_of_toNat_eq_register {r : Fin 8} (h : w.toNat = 32768 + r.val) : Operand.ofWord w = .reg r := by
  have hlit : ¬ 32768 + r.val ≤ 32767 := by omega
  simp [Operand.ofWord, h, hlit]

theorem Operand.ofWord_of_toNat_ge (h : 32776 ≤ w.toNat) : Operand.ofWord w = .invalid w := by
  have hlit : ¬ w.toNat ≤ 32767 := by omega
  have hreg : ¬ w.toNat - 32768 < 8 := by omega
  simp [Operand.ofWord, hlit, hreg]

end

/-- The value of an operand word from the three bit fields that decide its class (30_encoding.md R92). -/
theorem toNat_eq_operandFields (w : MemWord) :
    w.toNat = 32768 * (w.extractLsb' 15 1).toNat + 8 * (w.extractLsb' 3 12).toNat + (w.extractLsb' 0 3).toNat := by
  have hw := w.isLt
  simp only [BitVec.extractLsb'_toNat, Nat.shiftRight_eq_div_pow]
  omega

/-- Settles O4: the bit fields place the word in the value range of its class. -/
theorem operandClassesByBitFields : Obligations.OperandClassesByBitFields := by
  intro w
  have hfields := toNat_eq_operandFields w
  have hlow := (w.extractLsb' 0 3).isLt
  refine ⟨fun htop => ?_, fun htop hzero => ?_, fun htop hne => ?_, Operand.word_ofWord w⟩
  · have htop : (w.extractLsb' 15 1).toNat = 0 := congrArg BitVec.toNat htop
    rw [Operand.ofWord_of_toNat_le (by omega)]
    rfl
  · have htop : (w.extractLsb' 15 1).toNat = 1 := congrArg BitVec.toNat htop
    have hzero : (w.extractLsb' 3 12).toNat = 0 := congrArg BitVec.toNat hzero
    exact ⟨⟨_, hlow⟩, rfl, Operand.ofWord_of_toNat_eq_register (by dsimp only; omega)⟩
  · have htop : (w.extractLsb' 15 1).toNat = 1 := congrArg BitVec.toNat htop
    have hne : (w.extractLsb' 3 12).toNat ≠ 0 := fun h => hne (BitVec.eq_of_toNat_eq h)
    exact Operand.ofWord_of_toNat_ge (by omega)

/-! #### The source's programs -/

/-- Settles O5: each list is the encoding of its first instruction and the words after it. -/
theorem sourceImagesDecode : Obligations.SourceImagesDecode := by
  refine ⟨?_, ?_, ?_, ?_, ?_, ?_, ?_, ?_, ?_, ?_⟩ <;> exact (decodeInvertsEncode _ _ _).2 ⟨rfl, rfl⟩

end Sys2Proof

/-! ### Sequencer obligations (40_sequencer.md) -/

namespace Sys2Proof

/-! #### Operand words at their use -/

theorem Operand.ofWord_ne_reg {w : MemWord} (h : w.toNat < 32768 ∨ 32776 ≤ w.toNat) (r : Fin 8) :
    Operand.ofWord w ≠ .reg r := by
  obtain hlit | hinv := h
  · rw [Operand.ofWord_of_toNat_le (by omega)]
    nofun
  · rw [Operand.ofWord_of_toNat_ge hinv]
    nofun

/-- No instruction has more than four words (30_encoding.md R93). -/
theorem Instr.length_le_four (i : Instr) : i.length ≤ 4 := by
  cases i <;> simp [Instr.length, Instr.arity, Instr.operands]

end Sys2Proof

namespace Sys2Proof.Machine

/-- Settles O12: the value range of the word fixes its class, and `resolve` is by class. -/
theorem resolveByOperandWord : Obligations.ResolveByOperandWord := by
  intro w s
  refine ⟨fun hlit => ⟨BitVec.ofNat 15 w.toNat, ?_, ?_⟩, fun r hreg => ?_, fun hinv => ?_⟩
  · rw [Operand.ofWord_of_toNat_le hlit, resolve_lit]
  · exact Nat.mod_eq_of_lt (by omega)
  · rw [Operand.ofWord_of_toNat_eq_register hreg, resolve_reg]
  · rw [Operand.ofWord_of_toNat_ge hinv, resolve_invalid]

/-- Settles O13: `dest` accepts the register class alone and raises with the raw word, which the class keeps. -/
theorem destByOperandWord : Obligations.DestByOperandWord := by
  intro w
  refine ⟨fun r hreg => ?_, fun hrange => ?_⟩
  · rw [Operand.ofWord_of_toNat_eq_register hreg, dest_reg]
  · exact dest_eq_error.2 ⟨Operand.ofWord_ne_reg hrange, by rw [Operand.word_ofWord]⟩

/-! #### Untaken branches -/

theorem nonzero_eq_false_iff {v : Word} : nonzero v = false ↔ v = 0 := by
  simp [nonzero, BitVec.toNat_eq]

section
variable {a : Operand} {s : State} {v : Word} (ha : resolve a s = .ok v) (b : Operand)
include ha

/-- `jt` on zero only advances, whatever its target operand is (45_branch.md R191). -/
theorem exec_jt_of_eq_zero (hv : v = 0) : exec (.jt a b) s = .next (s.advance 2) := by
  simp [exec, execJt, ha, branchTo, nonzero_eq_false_iff.2 hv]

/-- `jf` on nonzero only advances, whatever its target operand is (45_branch.md R192). -/
theorem exec_jf_of_ne_zero (hv : v ≠ 0) : exec (.jf a b) s = .next (s.advance 2) := by
  have htrue : nonzero v = true := by simpa using mt nonzero_eq_false_iff.1 hv
  simp [exec, execJf, ha, branchTo, htrue]

end

/-- Settles O15: an untaken branch has the same next state for every target operand. -/
theorem untakenTargetsAreNeverResolved : Obligations.UntakenTargetsAreNeverResolved := by
  intro a b b' s v ha
  refine ⟨fun hv => ⟨?_, exec_jt_of_eq_zero ha b hv⟩, fun hv => ⟨?_, exec_jf_of_ne_zero ha b hv⟩⟩
  · rw [exec_jt_of_eq_zero ha b hv, exec_jt_of_eq_zero ha b' hv]
  · rw [exec_jf_of_ne_zero ha b hv, exec_jf_of_ne_zero ha b' hv]

/-! #### Fetch and decode -/

/-- Settles O7: outside the extent the fetch window is empty. -/
theorem fetchBeyondTheExtentFaults : Obligations.FetchBeyondTheExtentFaults :=
  fun _ hf hpc => step_of_pc_ge hf hpc

/-- Settles O8: the three outcomes of a fetch inside the extent. -/
theorem decodeChecksCatalogThenOperands : Obligations.DecodeChecksCatalogThenOperands :=
  fun _ hf hpc => ⟨step_of_opcode_ge hf hpc rfl, step_of_operands_outside hf hpc rfl,
    step_of_operands_inside hf hpc rfl⟩

/-- The fetch window is long enough for every instruction that fits in the extent. -/
theorem take_fetchWords {s : State} {n : Nat} (hlen : n ≤ 4) (hfit : s.pc.toNat + n ≤ s.params.memWords.val) :
    s.fetchWords.take n = cellsFrom s s.pc.toNat n :=
  take_cellsFrom (by omega) s s.pc.toNat

/-- A well-formed instruction whose words stand at the pc is the one fetched. -/
theorem fetchInstr_of_cellsFrom_eq_encode {s : State} {i : Instr} (hwf : i.wf = true)
    (hfit : s.pc.toNat + i.length ≤ s.params.memWords.val) (hcells : cellsFrom s s.pc.toNat i.length = encode i) :
    fetchInstr s = .ok i := by
  have htake : s.fetchWords.take i.length = encode i := (take_fetchWords i.length_le_four hfit).trans hcells
  apply fetchInstr_of_decodeWords_ok
  rw [← List.take_append_drop i.length s.fetchWords, htake]
  exact decodeWords_encode_append hwf _

/-- Settles O6: the instruction that stands at the pc is fetched, and the step is `exec` of the fetched one. -/
theorem stepExecutesTheInstructionAtThePc : Obligations.StepExecutesTheInstructionAtThePc :=
  fun _ _ hf hwf hfit hcells => step_of_fetchInstr_ok hf (fetchInstr_of_cellsFrom_eq_encode hwf hfit hcells)

/-! #### The step outside and around `exec` -/

theorem step_of_final {s : State} (h : s.status ≠ .running) : step s = .next s := by
  simp [step, beforeFetch_of_final h]

theorem step_of_stop {s : State} (h : s.status = .running) (hstop : (s.params.hostStop && s.stopReq) = true) :
    step s = .next { s with status := .stopped } := by
  simp [step, beforeFetch_of_stop h hstop]

/-- Settles O9: a final state has nothing to do before a fetch, and does not fetch. -/
theorem finalStatesDoNothing : Obligations.FinalStatesDoNothing := fun _ h => step_of_final h

/-- Every branch of the step ends in a next state: `exec` stops on no instruction. -/
theorem step_next (s : State) : ∃ t, step s = .next t := by
  by_cases hrun : s.status = .running
  · cases hstop : s.params.hostStop && s.stopReq
    · cases hi : fetchInstr s with
      | ok i =>
        rw [step_of_fetchInstr_ok ⟨hrun, hstop⟩ hi]
        exact exec_next i s
      | error r => exact ⟨_, step_of_fetchInstr_error ⟨hrun, hstop⟩ hi⟩
    · exact ⟨_, step_of_stop hrun hstop⟩
  · exact ⟨s, step_of_final hrun⟩

theorem step_params {s t : State} (h : step s = .next t) : t.params = s.params := by
  cases step_cases h with
  | run i t hs hi hx => exact (exec_effect hx).params_eq
  | _ => rfl

/-- Settles O11: no branch of the step stops the model or writes the parameters. -/
theorem everyStepAnswersANextState : Obligations.EveryStepAnswersANextState := by
  intro s
  obtain ⟨t, ht⟩ := step_next s
  exact ⟨t, ht, step_params ht⟩

/-- Settles O14: a running CORE faults in the fetch or in the effect of the fetched instruction, and both are the one
fault entry. -/
theorem faultsArePrecise : Obligations.FaultsArePrecise := by
  intro s t hrun h hfault
  cases step_cases h with
  | final hs => exact absurd hrun hs
  | stop => cases hfault
  | fetchFault r => exact ⟨r.kind, r.info, rfl⟩
  | run i t hs hi hx => exact (exec_effect hx).eq_faultedWith hrun hfault

/-! #### The stop request is read before the fetch and nowhere else -/

/-- The state with another level of `stop_req`. -/
def withStopReq (q : Bool) (s : State) : State := { s with stopReq := q }

/-! What a check or an update reads is not `stop_req`, so the level can be set before or after it. -/

section
variable (q : Bool) (s : State)

@[simp] theorem resolve_withStopReq (o : Operand) : resolve o (withStopReq q s) = resolve o s := resolve_congr rfl o

@[simp] theorem writeDest_withStopReq (a : Operand) (v : Word) (n : Nat) :
    writeDest a v n (withStopReq q s) = withStopReq q <$> writeDest a v n s := by
  cases a <;> rfl

@[simp] theorem branchTo_withStopReq (taken : Bool) (b : Operand) :
    branchTo taken b (withStopReq q s) = withStopReq q <$> branchTo taken b s := by
  cases taken
  · rfl
  · cases b <;> rfl

@[simp] theorem memRead_withStopReq (addr : MemWord) (n : Nat) (r : Raise) :
    memRead (withStopReq q s) addr n r = memRead s addr n r := rfl

@[simp] theorem memWrite_withStopReq (addr w : MemWord) :
    memWrite (withStopReq q s) addr w = withStopReq q <$> memWrite s addr w := by
  unfold memWrite
  rw [apply_ite (withStopReq q <$> ·)]
  rfl

@[simp] theorem pushEntry_withStopReq (op e : MemWord) :
    pushEntry (withStopReq q s) op e = withStopReq q <$> pushEntry s op e := by
  unfold pushEntry
  rw [apply_ite (withStopReq q <$> ·)]
  rfl

@[simp] theorem resolveEntry_withStopReq (p : MemWord) : resolveEntry p (withStopReq q s) = resolveEntry p s :=
  resolve_withStopReq q s _

theorem fetchInstr_withStopReq : fetchInstr (withStopReq q s) = fetchInstr s := rfl

@[simp] theorem params_withStopReq : (withStopReq q s).params = s.params := rfl

@[simp] theorem advance_withStopReq (n : Nat) : (withStopReq q s).advance n = withStopReq q (s.advance n) := rfl

@[simp] theorem jump_withStopReq (v : Word) : (withStopReq q s).jump v = withStopReq q (s.jump v) := rfl

@[simp] theorem setReg_withStopReq (r : Fin 8) (v : Word) :
    (withStopReq q s).setReg r v = withStopReq q (s.setReg r v) := rfl

@[simp] theorem dropTop_withStopReq : (withStopReq q s).dropTop = withStopReq q s.dropTop := rfl

@[simp] theorem haltCore_withStopReq : (withStopReq q s).haltCore = withStopReq q s.haltCore := rfl

@[simp] theorem outWrite_withStopReq (v : Word) : (withStopReq q s).outWrite v = withStopReq q (s.outWrite v) := rfl

@[simp] theorem pc_withStopReq : (withStopReq q s).pc = s.pc := rfl

@[simp] theorem stack_withStopReq : (withStopReq q s).stack = s.stack := rfl

@[simp] theorem outReady_withStopReq : (withStopReq q s).outReady = s.outReady := rfl

@[simp] theorem inRead_withStopReq :
    (withStopReq q s).inRead = s.inRead.map fun (ch, t) => (ch, withStopReq q t) := by
  cases hin : s.input <;> simp [State.inRead, withStopReq, hin]

end

section
variable {s t : State} {q : Bool}

/-- An instruction whose effect commutes with the level of `stop_req` ends the same way for both levels. -/
theorem finish_withStopReq {x y : Except Raise State} (hy : y = withStopReq q <$> x) (h : s.finish x = .next t) :
    (withStopReq q s).finish y = .next (withStopReq q t) := by
  subst hy
  cases x <;> cases h <;> rfl

theorem unaryOp_withStopReq {f : Word → Word} {a b : Operand} (h : unaryOp f a b s = .next t) :
    unaryOp f a b (withStopReq q s) = .next (withStopReq q t) :=
  finish_withStopReq (by simp [map_bind]) h

theorem binaryOp_withStopReq {f : Word → Word → Except Raise Word} {a b c : Operand}
    (h : binaryOp f a b c s = .next t) : binaryOp f a b c (withStopReq q s) = .next (withStopReq q t) :=
  finish_withStopReq (by simp [map_bind]) h

/-- No instruction reads or writes `stop_req`. -/
theorem exec_withStopReq {i : Instr} (h : exec i s = .next t) :
    exec i (withStopReq q s) = .next (withStopReq q t) := by
  cases i
  case set | not => exact unaryOp_withStopReq h
  case eq | gt | add | mult | mod | and | or => exact binaryOp_withStopReq h
  case halt | noop => exact finish_withStopReq (q := q) (s := s) (x := .ok _) rfl h
  case push | jmp | jt | jf | call | rmem | wmem => exact finish_withStopReq (by simp [map_bind]) h
  case pop | ret =>
    refine finish_withStopReq ?_ h
    cases hp : s.stack.getLast? <;> simp [hp, map_bind]
  case out =>
    refine finish_withStopReq ?_ h
    cases hready : s.outReady <;> simp [hready, map_bind, State.hold]
  case inp =>
    refine finish_withStopReq ?_ h
    cases hin : s.inRead <;> simp [hin, map_bind, State.hold]

theorem fetching_withStopReq (hf : s.fetching) (hhost : s.params.hostStop = false) : (withStopReq q s).fetching :=
  ⟨hf.1, by simp [hhost]⟩

/-- Without HOST_STOP the fetch, its faults and the fetched instruction are the same for both levels. -/
theorem step_withStopReq (hhost : s.params.hostStop = false) (h : step s = .next t) :
    step (withStopReq q s) = .next (withStopReq q t) := by
  cases step_cases h with
  | final hs => exact step_of_final hs
  | stop hs hhost' => simp [hhost] at hhost'
  | fetchFault r hs hi =>
    rw [← fetchInstr_withStopReq q] at hi
    exact step_of_fetchInstr_error (fetching_withStopReq hs hhost) hi
  | run i t hs hi hx =>
    rw [← fetchInstr_withStopReq q] at hi
    rw [step_of_fetchInstr_ok (fetching_withStopReq hs hhost) hi]
    exact exec_withStopReq hx

end

/-- Settles O10: the request decides before the fetch, and without HOST_STOP no branch reads it. -/
theorem hostStopEndsTheRunOrIsAbsent : Obligations.HostStopEndsTheRunOrIsAbsent :=
  ⟨fun _ hrun hhost hreq => step_of_stop hrun (by simp [hhost, hreq]), fun _ _ _ hhost h => step_withStopReq hhost h⟩

end Sys2Proof.Machine

/-! ### Machine control obligations (41_machine_control.md) -/

namespace Sys2Proof

/-- Format F0: an instruction without operands is its opcode word alone (30_encoding.md R93). -/
theorem encode_of_operands_nil {i : Instr} (h : i.operands = []) : encode i = [opcodeWord i] := by
  simp [encode, h]

end Sys2Proof

namespace Sys2Proof.Machine

/-- The default advance of an instruction without operands (40_sequencer.md R130). -/
theorem State.advance_zero (s : State) : s.advance 0 = { s with pc := s.pc + 1 } := rfl

theorem exec_noop (s : State) : exec .noop s = .next (s.advance 0) := rfl

/-- Settles O16: the effect writes the status alone, and the default advance moves the pc of the state it leaves. -/
theorem haltEndsTheRunAfterAdvancing : Obligations.HaltEndsTheRunAfterAdvancing := by
  intro s
  refine ⟨encode_of_operands_nil rfl, ?_⟩
  rw [exec_halt, State.advance_zero, State.haltCore]

/-- Settles O17: `noop` is its default advance. -/
theorem noopOnlyAdvances : Obligations.NoopOnlyAdvances := by
  intro s
  refine ⟨encode_of_operands_nil rfl, ?_⟩
  rw [exec_noop, State.advance_zero]

end Sys2Proof.Machine

/-! ### Register move obligations (42_register_set.md) -/

namespace Sys2Proof.Machine

/-! #### The three ends of a one-source instruction -/

/-- Register write and default advance of a two-operand instruction (40_sequencer.md R129, R130). -/
theorem State.advance_two_setReg (s : State) (r : Fin 8) (v : Word) :
    (s.setReg r v).advance 2 = { s with regs := s.regs.set r.val v, pc := s.pc + 3 } := rfl

section
variable {f : Word → Word} {a b : Operand} {s : State} {x : Word}

theorem unaryOp_reg (hb : resolve b s = .ok x) (r : Fin 8) :
    unaryOp f (.reg r) b s = .next ((s.setReg r (f x)).advance 2) := by
  have hw : writeDest (.reg r) (f x) 2 s = .ok ((s.setReg r (f x)).advance 2) := writeDest_eq_ok.2 ⟨r, rfl, rfl⟩
  simp [unaryOp, hb, hw]

/-- An invalid source faults before the destination is looked at (40_sequencer.md R131). -/
theorem unaryOp_invalid (f : Word → Word) (a : Operand) (w : MemWord) (s : State) :
    unaryOp f a (.invalid w) s = .next (s.faultedWith .invalidOperand w) := by
  simp [unaryOp, State.takeFault]

theorem unaryOp_of_notRegister (hb : resolve b s = .ok x) (ha : notRegister a) :
    unaryOp f a b s = .next (s.faultedWith .invalidRegister a.word) := by
  have hw : writeDest a (f x) 2 s = .error ⟨.invalidRegister, a.word⟩ := writeDest_eq_error.2 ⟨ha, rfl⟩
  simp [unaryOp, hb, hw, State.takeFault]

end

/-- An instruction executed as `unaryOp f` obeys the two-operand rule for the function `f` computes on naturals. -/
theorem twoOperandRule_of_unaryOp {mk : Operand → Operand → Instr} {op : MemWord} {f : Word → Word}
    {result : Nat → Nat} (hencode : ∀ a b, encode (mk a b) = [op, a.word, b.word])
    (hexec : ∀ a b s, exec (mk a b) s = unaryOp f a b s) (hresult : ∀ x, (f x).toNat = result x.toNat) :
    TwoOperandRule mk op result := by
  intro a b s
  rw [hexec]
  refine ⟨hencode a b, fun x r hb ha => ⟨f x, hresult x, ?_⟩, fun w hb => ?_, fun _ hb ha => ?_⟩
  · rw [ha, unaryOp_reg hb, State.advance_two_setReg]
  · rw [hb, unaryOp_invalid]
  · exact unaryOp_of_notRegister hb ha

/-! #### `set` -/

theorem exec_set (a b : Operand) (s : State) : exec (.set a b) s = unaryOp (fun v => v) a b s := rfl

/-- Settles O18: `set` is the one-source instruction of the identity, and the register written is read back. -/
theorem setWritesTheResolvedSource : Obligations.SetWritesTheResolvedSource := by
  refine ⟨twoOperandRule_of_unaryOp (fun _ _ => rfl) exec_set (fun _ => rfl), fun r b v s hb => ?_⟩
  have hr : ((s.setReg r v).advance 2).reg r = v := s.reg_setReg_same r v
  exact ⟨_, (exec_set _ _ _).trans (unaryOp_reg hb r), by rw [resolve_reg, hr]⟩

end Sys2Proof.Machine

/-! ### Stack obligations (43_stack.md) -/

namespace Sys2Proof

/-- Format F1: an instruction with one operand is its opcode word and the operand's word (30_encoding.md R93). -/
theorem encode_of_operands_singleton {i : Instr} {a : Operand} (h : i.operands = [a]) :
    encode i = [opcodeWord i, a.word] := by
  simp [encode, h]

end Sys2Proof

namespace Sys2Proof.Machine

/-! #### The ends of `push` -/

section
variable {a : Operand} {s : State} {v : Word}

theorem exec_push_invalid (w : MemWord) (s : State) :
    exec (.push (.invalid w)) s = .next (s.faultedWith .invalidOperand w) := by
  simp [exec, execPush, State.takeFault]

/-- A full stack faults after the source is resolved, and nothing is pushed (10_state.md R40). -/
theorem exec_push_of_full (ha : resolve a s = .ok v) (hfull : s.stackFull = true) :
    exec (.push a) s = .next (s.faultedWith .stackOverflow 2) := by
  have hpush : pushEntry s 2 (zext16 v) = .error ⟨.stackOverflow, 2⟩ := pushEntry_eq_error.2 ⟨hfull, rfl⟩
  simp only [exec, execPush, ha, hpush, ok_bind, error_bind, State.finish_error, State.takeFault]

theorem exec_push_of_not_full (ha : resolve a s = .ok v) (hfree : s.stackFull = false) :
    exec (.push a) s = .next { s with stack := s.stack ++ [zext16 v], pc := s.pc + 2 } := by
  have hpush : pushEntry s 2 (zext16 v) = .ok { s with stack := s.stack ++ [zext16 v] } :=
    pushEntry_eq_ok.2 ⟨hfree, rfl⟩
  simp only [exec, execPush, ha, hpush, ok_bind, State.finish_ok]
  rfl

end

/-- Settles O19: the source is resolved first, then the stack is full or takes the entry. -/
theorem pushAppendsTheResolvedSource : Obligations.PushAppendsTheResolvedSource := by
  intro a s
  refine ⟨encode_of_operands_singleton rfl, ?_, fun v d ha hd hlen => ?_, fun v ha hfree => ?_⟩
  · rintro w rfl
    exact exec_push_invalid w s
  · exact exec_push_of_full ha ((stackFull_iff s).2 (by rw [hd, hlen]))
  · exact exec_push_of_not_full ha (Bool.eq_false_iff.2 (mt (stackFull_iff s).1 hfree))

/-! #### What a popped entry resolves to -/

/-- The entry a push made of a value resolves to that value again, in every state (43_stack.md R172). -/
@[simp] theorem resolveEntry_zext16 (v : Word) (s : State) : resolveEntry (zext16 v) s = .ok v := by
  have hclass : Operand.ofWord (zext16 v) = .lit v := Operand.ofWord_word (o := .lit v) rfl
  rw [resolveEntry, hclass, resolve_lit]

/-- The entry 32768, which a `call` at the top of memory leaves, names register 0 (92_eei_decisions.md D25). -/
theorem resolveEntry_32768 (s : State) : resolveEntry 32768 s = .ok (s.reg 0) :=
  (resolveByOperandWord 32768 s).2.1 0 rfl

theorem resolveEntry_of_toNat_le {p : MemWord} (h : p.toNat ≤ 32767) (s : State) :
    ∃ v : Word, resolveEntry p s = .ok v ∧ v.toNat = p.toNat :=
  (resolveByOperandWord p s).1 h

/-- Every entry a stack holds resolves (10_state.md R39). -/
theorem exists_resolveEntry_eq_ok {p : MemWord} (h : p.toNat ≤ 32768) (s : State) :
    ∃ v, resolveEntry p s = .ok v := by
  obtain hlt | heq := Nat.lt_or_eq_of_le h
  · obtain ⟨v, hv, -⟩ := resolveEntry_of_toNat_le (Nat.le_of_lt_succ hlt) s
    exact ⟨v, hv⟩
  · obtain rfl : p = 32768 := BitVec.eq_of_toNat_eq heq
    exact ⟨s.reg 0, resolveEntry_32768 s⟩

/-! #### The ends of `pop` -/

section
variable {s : State} {rest : List MemWord} {p : MemWord} {v : Word}

theorem exec_pop_of_stack_nil (a : Operand) (hs : s.stack = []) :
    exec (.pop a) s = .next (s.faultedWith .stackUnderflow 3) := by
  simp [exec, execPop, hs, State.takeFault]

theorem exec_pop_reg (hs : s.stack = rest ++ [p]) (hp : resolveEntry p s = .ok v) (r : Fin 8) :
    exec (.pop (.reg r)) s = .next { s with stack := rest, regs := s.regs.set r.val v, pc := s.pc + 2 } := by
  have hw : writeDest (.reg r) v 1 s.dropTop = .ok ((s.dropTop.setReg r v).advance 1) :=
    writeDest_eq_ok.2 ⟨r, rfl, rfl⟩
  have hdone : exec (.pop (.reg r)) s = .next ((s.dropTop.setReg r v).advance 1) := by
    simp [exec, execPop, hs, hp, hw]
  rw [hdone]
  simp [State.dropTop, State.setReg, State.advance, hs]

/-- A destination that is no register faults from the state before the pop, so the entry is kept (40_sequencer.md
R132). -/
theorem exec_pop_of_notRegister {a : Operand} (hs : s.stack = rest ++ [p]) (hp : resolveEntry p s = .ok v)
    (ha : notRegister a) : exec (.pop a) s = .next (s.faultedWith .invalidRegister a.word) := by
  have hw : writeDest a v 1 s.dropTop = .error ⟨.invalidRegister, a.word⟩ := writeDest_eq_error.2 ⟨ha, rfl⟩
  simp [exec, execPop, hs, hp, hw, State.takeFault]

end

/-- Settles O20: emptiness is checked first; every entry up to 32768 resolves; then the destination decides. -/
theorem popResolvesTheTopEntry : Obligations.PopResolvesTheTopEntry := by
  intro a s
  refine ⟨encode_of_operands_singleton rfl, exec_pop_of_stack_nil a, fun rest p hs hp ha => ?_, ?_, ?_⟩
  · obtain ⟨v, hv⟩ := exists_resolveEntry_eq_ok hp s
    exact exec_pop_of_notRegister hs hv ha
  · rintro rest p r hs hp rfl
    obtain ⟨v, hv, hval⟩ := resolveEntry_of_toNat_le hp s
    exact ⟨v, hval, exec_pop_reg hs hv r⟩
  · rintro rest r hs rfl
    exact exec_pop_reg hs (resolveEntry_32768 s) r

/-! #### Runs without a fault -/

/-- A run of an instruction and more instructions completes the first one and goes on from there: a fault would leave
the status FAULTED. -/
theorem execAll_cons_eq_some {i : Instr} {is : List Instr} {s t : State} (h : execAll (i :: is) s = some t) :
    ∃ u, Completes i s u ∧ execAll is u = some t := by
  obtain ⟨u, hu⟩ := exec_next i s
  simp only [execAll, hu] at h
  split at h
  · next hrun =>
    obtain hc | ⟨r, rfl⟩ := exec_cases hu
    · exact ⟨u, hc, h⟩
    · cases hrun
  · cases h

theorem execAll_append_eq_some {is js : List Instr} {s t : State} (h : execAll (is ++ js) s = some t) :
    ∃ u, execAll is s = some u ∧ execAll js u = some t := by
  induction is generalizing s with
  | nil => exact ⟨s, rfl, h⟩
  | cons i is ih =>
    simp only [List.cons_append, execAll] at h ⊢
    split at h
    · split at h
      · next hrun =>
        simpa only [hrun, if_true] using ih h
      · cases h
    all_goals cases h

/-! #### The LIFO law -/

/-- The instructions leave the stack as it was, from every state from which they run without a fault. -/
def KeepsStack (is : List Instr) : Prop := ∀ ⦃s t : State⦄, execAll is s = some t → t.stack = s.stack

/-- Around instructions that keep the stack, the pop stores the value the push resolved and removes its entry
(43_stack.md R172). -/
theorem KeepsStack.push_pop {is : List Instr} (his : KeepsStack is) {a d : Operand} {s t : State}
    (h : execAll (.push a :: is ++ [.pop d]) s = some t) :
    ∃ v r, resolve a s = .ok v ∧ d = .reg r ∧ t.reg r = v ∧ t.stack = s.stack := by
  obtain ⟨s₁, ⟨v, ha, -, rfl⟩, hrest⟩ := execAll_cons_eq_some h
  obtain ⟨s₂, hmid, hpop⟩ := execAll_append_eq_some hrest
  obtain ⟨s₃, ⟨p, x, r, htop, hx, hd, rfl⟩, hend⟩ := execAll_cons_eq_some hpop
  cases hend
  have hstack : s₂.stack = s.stack ++ [zext16 v] := his hmid
  obtain rfl : zext16 v = p := by simpa [hstack] using htop
  obtain rfl : v = x := by simpa using hx
  exact ⟨v, r, ha, hd, s₂.dropTop.reg_setReg_same r v, by simp [hstack]⟩

/-- A balanced sequence is blocks one after the other, and each block pops what it pushed. -/
theorem Balanced.keepsStack {is : List Instr} (h : Balanced is) : KeepsStack is := by
  induction h with
  | nil =>
    intro s t h
    cases h
    rfl
  | block a d is js _ _ his hjs =>
    intro s t h
    rw [← List.singleton_append (l := js), ← List.append_assoc] at h
    obtain ⟨u, hblock, hjsRun⟩ := execAll_append_eq_some h
    obtain ⟨-, -, -, -, -, hstack⟩ := his.push_pop hblock
    exact (hjs hjsRun).trans hstack

/-- Settles O21: a balanced sequence keeps the stack, so the pop after it takes the entry of the push before it. -/
theorem everyPopStoresTheLatestOpenPush : Obligations.EveryPopStoresTheLatestOpenPush := by
  intro is hbal s t
  refine ⟨fun h => hbal.keepsStack h, fun a v r ha h => ?_⟩
  obtain ⟨x, r', hx, hd, hreg, hstack⟩ := hbal.keepsStack.push_pop h
  cases hd
  cases ha.symm.trans hx
  exact ⟨hreg, hstack⟩

end Sys2Proof.Machine

/-! ### Comparison obligations (44_compare.md) -/

namespace Sys2Proof.Machine

/-! #### The four ends of a two-source instruction -/

/-- Register write and default advance of a three-operand instruction (40_sequencer.md R129, R130). -/
theorem State.advance_three_setReg (s : State) (r : Fin 8) (v : Word) :
    (s.setReg r v).advance 3 = { s with regs := s.regs.set r.val v, pc := s.pc + 4 } := rfl

section
variable {f : Word → Word → Except Raise Word} {a b c : Operand} {s : State} {x y v : Word}

theorem binaryOp_reg (hb : resolve b s = .ok x) (hc : resolve c s = .ok y) (hf : f x y = .ok v) (r : Fin 8) :
    binaryOp f (.reg r) b c s = .next ((s.setReg r v).advance 3) := by
  have hw : writeDest (.reg r) v 3 s = .ok ((s.setReg r v).advance 3) := writeDest_eq_ok.2 ⟨r, rfl, rfl⟩
  simp [binaryOp, hb, hc, hf, hw]

/-- An invalid first source faults before the second source and the destination are looked at (40_sequencer.md R131). -/
theorem binaryOp_invalid_left (f : Word → Word → Except Raise Word) (a c : Operand) (w : MemWord) (s : State) :
    binaryOp f a (.invalid w) c s = .next (s.faultedWith .invalidOperand w) := by
  simp [binaryOp, State.takeFault]

/-- An invalid second source faults before the value check and the destination are looked at (40_sequencer.md R131). -/
theorem binaryOp_invalid_right (f : Word → Word → Except Raise Word) (a : Operand) (hb : resolve b s = .ok x)
    (w : MemWord) : binaryOp f a b (.invalid w) s = .next (s.faultedWith .invalidOperand w) := by
  simp [binaryOp, hb, State.takeFault]

theorem binaryOp_of_notRegister (hb : resolve b s = .ok x) (hc : resolve c s = .ok y) (hf : f x y = .ok v)
    (ha : notRegister a) : binaryOp f a b c s = .next (s.faultedWith .invalidRegister a.word) := by
  have hw : writeDest a v 3 s = .error ⟨.invalidRegister, a.word⟩ := writeDest_eq_error.2 ⟨ha, rfl⟩
  simp [binaryOp, hb, hc, hf, hw, State.takeFault]

end

/-- An instruction executed as `binaryOp` of a total `f` obeys the three-operand rule for the function `f` computes on
naturals. -/
theorem threeOperandRule_of_binaryOp {mk : Operand → Operand → Operand → Instr} {op : MemWord}
    {f : Word → Word → Word} {result : Nat → Nat → Nat}
    (hencode : ∀ a b c, encode (mk a b c) = [op, a.word, b.word, c.word])
    (hexec : ∀ a b c s, exec (mk a b c) s = binaryOp (fun x y => .ok (f x y)) a b c s)
    (hresult : ∀ x y, (f x y).toNat = result x.toNat y.toNat) : ThreeOperandRule mk op result := by
  intro a b c s
  rw [hexec]
  refine ⟨hencode a b c, fun x y r hb hc ha => ⟨f x y, hresult x y, ?_⟩, fun w hb => ?_, fun _ w hb hc => ?_,
    fun _ _ hb hc ha => ?_⟩
  · rw [ha, binaryOp_reg hb hc rfl, State.advance_three_setReg]
  · rw [hb, binaryOp_invalid_left]
  · rw [hc, binaryOp_invalid_right _ _ hb]
  · exact binaryOp_of_notRegister hb hc rfl ha

/-! #### `eq` and `gt` -/

/-- The word a comparison writes is 1 exactly where its condition on naturals holds (10_state.md R48). -/
theorem toNat_conditionWord_decide (p : Prop) [Decidable p] :
    (conditionWord (decide p)).toNat = if p then 1 else 0 := by
  by_cases h : p <;> simp [conditionWord, h]

theorem exec_eq (a b c : Operand) (s : State) :
    exec (.eq a b c) s = binaryOp (fun x y => .ok (eqWord x y)) a b c s := rfl

theorem exec_gt (a b c : Operand) (s : State) :
    exec (.gt a b c) s = binaryOp (fun x y => .ok (gtWord x y)) a b c s := rfl

/-- Settles O22: `eq` is the two-source instruction of the condition `x = y` on naturals. -/
theorem eqWritesOneOnEquality : Obligations.EqWritesOneOnEquality :=
  threeOperandRule_of_binaryOp (fun _ _ _ => rfl) exec_eq fun _ _ => toNat_conditionWord_decide _

/-- Settles O23: `gt` is the two-source instruction of the condition `y < x` on naturals. -/
theorem gtComparesUnsignedStrictly : Obligations.GtComparesUnsignedStrictly :=
  threeOperandRule_of_binaryOp (fun _ _ _ => rfl) exec_gt fun _ _ => toNat_conditionWord_decide _

end Sys2Proof.Machine

/-! ### Control transfer obligations (45_branch.md) -/

namespace Sys2Proof.Machine

/-! #### `jmp` -/

theorem exec_jmp_invalid (w : MemWord) (s : State) :
    exec (.jmp (.invalid w)) s = .next (s.faultedWith .invalidOperand w) :=
  State.finish_error s ⟨.invalidOperand, w⟩

theorem exec_jmp_of_resolve {a : Operand} {s : State} {t : Word} (ha : resolve a s = .ok t) :
    exec (.jmp a) s = .next (s.jump t) := by
  simp [exec, execJmp, ha]

/-- Settles O24: the target is resolved, and the pc takes it unchecked. -/
theorem jmpGoesToTheResolvedTarget : Obligations.JmpGoesToTheResolvedTarget := by
  intro a s
  refine ⟨encode_of_operands_singleton rfl, ?_, fun t ha => exec_jmp_of_resolve ha⟩
  rintro w rfl
  exact exec_jmp_invalid w s

/-! #### `jt` and `jf` -/

/-- The default advance of a two-operand instruction (40_sequencer.md R130). -/
theorem State.advance_two (s : State) : s.advance 2 = { s with pc := s.pc + 3 } := rfl

theorem nonzero_eq_true_iff {v : Word} : nonzero v = true ↔ v ≠ 0 := by
  rw [← Bool.not_eq_false, ne_eq, nonzero_eq_false_iff]

section
variable {a : Operand} {s : State} {v : Word} (ha : resolve a s = .ok v) (b : Operand)
include ha

/-- `jt` on nonzero is `jmp` to its second operand, the fault of an invalid target included (45_branch.md R191). -/
theorem exec_jt_of_ne_zero (hv : v ≠ 0) : exec (.jt a b) s = exec (.jmp b) s := by
  simp [exec, execJt, execJmp, ha, branchTo, nonzero_eq_true_iff.2 hv]

/-- `jf` on zero is `jmp` to its second operand, the fault of an invalid target included (45_branch.md R192). -/
theorem exec_jf_of_eq_zero (hv : v = 0) : exec (.jf a b) s = exec (.jmp b) s := by
  simp [exec, execJf, execJmp, ha, branchTo, nonzero_eq_false_iff.2 hv]

end

/-- Settles O25: a zero condition only advances, and a nonzero one makes `jt` a `jmp` to its second operand. -/
theorem jtJumpsIfNonzero : Obligations.JtJumpsIfNonzero := by
  intro a b s
  refine ⟨rfl, ?_, fun v ha hv => ?_, fun v w ha hv hb => ?_, fun v t ha hv hb => ?_⟩
  · rintro w rfl
    exact State.finish_error s ⟨.invalidOperand, w⟩
  · rw [exec_jt_of_eq_zero ha b (BitVec.eq_of_toNat_eq hv), State.advance_two]
  · rw [exec_jt_of_ne_zero ha b (BitVec.toNat_ne.2 hv), hb, exec_jmp_invalid]
  · rw [exec_jt_of_ne_zero ha b (BitVec.toNat_ne.2 hv)]
    exact exec_jmp_of_resolve hb

/-- Settles O26: a nonzero condition only advances, and a zero one makes `jf` a `jmp` to its second operand. -/
theorem jfJumpsIfZero : Obligations.JfJumpsIfZero := by
  intro a b s
  refine ⟨rfl, ?_, fun v ha hv => ?_, fun v w ha hv hb => ?_, fun v t ha hv hb => ?_⟩
  · rintro w rfl
    exact State.finish_error s ⟨.invalidOperand, w⟩
  · rw [exec_jf_of_ne_zero ha b (BitVec.toNat_ne.2 hv), State.advance_two]
  · rw [exec_jf_of_eq_zero ha b (BitVec.eq_of_toNat_eq hv), hb, exec_jmp_invalid]
  · rw [exec_jf_of_eq_zero ha b (BitVec.eq_of_toNat_eq hv)]
    exact exec_jmp_of_resolve hb

/-! #### `call` -/

section
variable {a : Operand} {s : State} {t : Word} (ha : resolve a s = .ok t)
include ha

/-- A full stack faults after the target is resolved, and the pc does not move (10_state.md R40). -/
theorem exec_call_of_full (hfull : s.stackFull = true) :
    exec (.call a) s = .next (s.faultedWith .stackOverflow 17) := by
  have hpush : pushEntry s 17 (s.pc + 2) = .error ⟨.stackOverflow, 17⟩ := pushEntry_eq_error.2 ⟨hfull, rfl⟩
  simp only [exec, execCall, ha, hpush, ok_bind, error_bind, State.finish_error, State.takeFault]

theorem exec_call_of_not_full (hfree : s.stackFull = false) :
    exec (.call a) s = .next { s with stack := s.stack ++ [s.pc + 2], pc := zext16 t } := by
  have hpush : pushEntry s 17 (s.pc + 2) = .ok { s with stack := s.stack ++ [s.pc + 2] } :=
    pushEntry_eq_ok.2 ⟨hfree, rfl⟩
  simp only [exec, execCall, ha, hpush, ok_bind, State.finish_ok, State.jump]

end

/-- Settles O27: the target is resolved first, then the stack is full or takes the return address. -/
theorem callPushesTheReturnAddress : Obligations.CallPushesTheReturnAddress := by
  intro a s
  refine ⟨encode_of_operands_singleton rfl, ?_, fun t d ha hd hlen => ?_, fun t ha hfree => ?_⟩
  · rintro w rfl
    exact State.finish_error s ⟨.invalidOperand, w⟩
  · exact exec_call_of_full ha ((stackFull_iff s).2 (by rw [hd, hlen]))
  · exact exec_call_of_not_full ha (Bool.eq_false_iff.2 (mt (stackFull_iff s).1 hfree))

/-! #### `ret` -/

/-- A resolved top entry is removed and becomes the pc (45_branch.md R194). -/
theorem exec_ret_of_resolveEntry {s : State} {rest : List MemWord} {p : MemWord} {v : Word}
    (hs : s.stack = rest ++ [p]) (hp : resolveEntry p s = .ok v) :
    exec .ret s = .next { s with stack := rest, pc := zext16 v } := by
  simp [exec, execRet, hs, hp, State.dropTop, State.jump]

/-- Settles O28: an empty stack halts; a value on top resolves to itself and the entry 32768 to register 0. -/
theorem retResolvesTheTopEntryOrHalts : Obligations.RetResolvesTheTopEntryOrHalts := by
  intro s
  refine ⟨encode_of_operands_nil rfl, exec_ret_of_stack_nil, fun rest p hs hp => ?_, fun rest hs => ?_⟩
  · obtain ⟨v, hv, hval⟩ := resolveEntry_of_toNat_le hp s
    have hentry : zext16 v = p := BitVec.eq_of_toNat_eq ((zext16_toNat v).trans hval)
    rw [exec_ret_of_resolveEntry hs hv, hentry]
  · exact exec_ret_of_resolveEntry hs (resolveEntry_32768 s)

end Sys2Proof.Machine

/-! ### ALU obligations (46_alu.md) -/

namespace Sys2Proof.Machine

/-! #### The words the ALU computes, as naturals -/

theorem toNat_addWord (x y : Word) : (addWord x y).toNat = (x.toNat + y.toNat) % 32768 :=
  (BitVec.toNat_ofNat _ _).trans (Nat.mod_mod _ _)

theorem toNat_multWord (x y : Word) : (multWord x y).toNat = (x.toNat * y.toNat) % 32768 :=
  (BitVec.toNat_ofNat _ _).trans (Nat.mod_mod _ _)

/-- The remainder fits in a register, since it does not exceed the dividend (46_alu.md R212). -/
theorem toNat_modWord (x y : Word) : (modWord x y).toNat = x.toNat % y.toNat :=
  (BitVec.toNat_ofNat _ _).trans (Nat.mod_eq_of_lt ((Nat.mod_le _ _).trans_lt x.isLt))

/-! #### The instructions with a total result -/

theorem exec_add (a b c : Operand) (s : State) :
    exec (.add a b c) s = binaryOp (fun x y => .ok (addWord x y)) a b c s := rfl

theorem exec_mult (a b c : Operand) (s : State) :
    exec (.mult a b c) s = binaryOp (fun x y => .ok (multWord x y)) a b c s := rfl

theorem exec_and (a b c : Operand) (s : State) :
    exec (.and a b c) s = binaryOp (fun x y => .ok (andWord x y)) a b c s := rfl

theorem exec_or (a b c : Operand) (s : State) :
    exec (.or a b c) s = binaryOp (fun x y => .ok (orWord x y)) a b c s := rfl

theorem exec_not (a b : Operand) (s : State) : exec (.not a b) s = unaryOp notWord a b s := rfl

/-- Settles O29: `add` is the two-source instruction of the sum modulo 32768. -/
theorem addIsModulo32768 : Obligations.AddIsModulo32768 :=
  threeOperandRule_of_binaryOp (fun _ _ _ => rfl) exec_add toNat_addWord

/-- Settles O30: `mult` is the two-source instruction of the product modulo 32768. -/
theorem multIsModulo32768 : Obligations.MultIsModulo32768 :=
  threeOperandRule_of_binaryOp (fun _ _ _ => rfl) exec_mult toNat_multWord

/-- Settles O32: `and` is the two-source instruction of the bitwise and, which the naturals of the words share. -/
theorem andIsBitwise : Obligations.AndIsBitwise :=
  threeOperandRule_of_binaryOp (fun _ _ _ => rfl) exec_and BitVec.toNat_and

/-- Settles O33: `or` is the two-source instruction of the bitwise or, which the naturals of the words share. -/
theorem orIsBitwise : Obligations.OrIsBitwise :=
  threeOperandRule_of_binaryOp (fun _ _ _ => rfl) exec_or BitVec.toNat_or

/-- Settles O34: `not` is the one-source instruction of the complement, which on 15 bits subtracts from 32767. -/
theorem notIsTheFifteenBitComplement : Obligations.NotIsTheFifteenBitComplement :=
  twoOperandRule_of_unaryOp (fun _ _ => rfl) exec_not fun _ => BitVec.toNat_not

/-! #### `mod` -/

theorem exec_mod (a b c : Operand) (s : State) : exec (.mod a b c) s = binaryOp (modChecked c) a b c s := rfl

theorem modChecked_of_eq_zero {y : Word} (hy : y.toNat = 0) (c : Operand) (x : Word) :
    modChecked c x y = .error ⟨.divideByZero, c.word⟩ := if_pos hy

theorem modChecked_of_ne_zero {y : Word} (hy : y.toNat ≠ 0) (c : Operand) (x : Word) :
    modChecked c x y = .ok (modWord x y) := if_neg hy

/-- A failed value check faults before the destination is looked at (40_sequencer.md R131). -/
theorem binaryOp_of_error {f : Word → Word → Except Raise Word} {b c : Operand} {s : State} {x y : Word} {r : Raise}
    (hb : resolve b s = .ok x) (hc : resolve c s = .ok y) (hf : f x y = .error r) (a : Operand) :
    binaryOp f a b c s = .next (s.takeFault r) := by
  simp [binaryOp, hb, hc, hf]

/-- Settles O31: `mod` is the two-source instruction of the remainder, whose value check is the zero divisor. -/
theorem modIsTheUnsignedRemainder : Obligations.ModIsTheUnsignedRemainder := by
  intro a b c s
  rw [exec_mod]
  refine ⟨rfl, fun w hb => ?_, fun _ w hb hc => ?_, fun x _ hb hc hy => ?_, fun x _ hb hc hy ha => ?_,
    fun x y r hb hc hy ha => ⟨modWord x y, toNat_modWord x y, ?_⟩⟩
  · rw [hb, binaryOp_invalid_left]
  · rw [hc, binaryOp_invalid_right _ _ hb]
  · exact binaryOp_of_error hb hc (modChecked_of_eq_zero hy c x) a
  · exact binaryOp_of_notRegister hb hc (modChecked_of_ne_zero hy c x) ha
  · rw [ha, binaryOp_reg hb hc (modChecked_of_ne_zero hy c x), State.advance_three_setReg]

end Sys2Proof.Machine

/-! ### Memory obligations (47_memory_ops.md) -/

namespace Sys2Proof.Machine

/-! #### The memory ports outside the extent, and the value of a cell -/

theorem memRead_one_of_outside {s : State} {addr : MemWord} (h : s.params.memWords.val ≤ addr.toNat) (r : Raise) :
    memRead s addr 1 r = .error r := by
  rw [memRead, if_neg (by omega), if_pos (by omega)]

theorem memWrite_of_outside {s : State} {addr : MemWord} (h : s.params.memWords.val ≤ addr.toNat) (w : MemWord) :
    memWrite s addr w = .error ⟨.invalidMemoryAccess, addr⟩ := if_pos h

theorem cellValue_of_gt {w : MemWord} (h : 32767 < w.toNat) : cellValue w = .error ⟨.wordOutOfRange, w⟩ :=
  if_pos h

/-- A cell up to 32767 gives a register its value (47_memory_ops.md R230). -/
theorem exists_cellValue_eq_ok {w : MemWord} (h : w.toNat ≤ 32767) :
    ∃ v : Word, cellValue w = .ok v ∧ v.toNat = w.toNat := by
  have hv : cellValue w = .ok (BitVec.ofNat 15 w.toNat) := if_neg (Nat.not_lt.2 h)
  exact ⟨_, hv, (cellValue_eq_ok.1 hv).2⟩

/-! #### The ends of `rmem` -/

theorem exec_rmem_invalid (a : Operand) (w : MemWord) (s : State) :
    exec (.rmem a (.invalid w)) s = .next (s.faultedWith .invalidOperand w) :=
  State.finish_error s ⟨.invalidOperand, w⟩

section
variable {b : Operand} {s : State} {addr v : Word} (hb : resolve b s = .ok addr)
include hb

theorem exec_rmem_of_outside (hext : s.params.memWords.val ≤ addr.toNat) (a : Operand) :
    exec (.rmem a b) s = .next (s.faultedWith .invalidMemoryAccess (zext16 addr)) := by
  have hr := memRead_one_of_outside (addr := zext16 addr) ((zext16_toNat addr).symm ▸ hext)
  simp only [exec, execRmem, hb, hr, ok_bind, error_bind, State.finish_error, State.takeFault]

/-- Inside the extent the cell's value is checked first, then the destination (47_memory_ops.md R230). -/
theorem exec_rmem_of_inside (hlt : addr.toNat < s.params.memWords.val) (a : Operand) :
    exec (.rmem a b) s = s.finish (cellValue (s.cell addr.toNat) >>= fun v => writeDest a v 2 s) := by
  have hr (r : Raise) : memRead s (zext16 addr) 1 r = .ok [s.cell addr.toNat] :=
    memRead_one_eq_ok.2 (by simp [zext16_toNat, hlt])
  simp only [exec, execRmem, hb, hr, ok_bind, firstWord, List.headD_cons]

/-- A cell that holds a word is read into the register named, and the pc advances (47_memory_ops.md R230). -/
theorem exec_rmem_reg (hlt : addr.toNat < s.params.memWords.val) (hv : cellValue (s.cell addr.toNat) = .ok v)
    (r : Fin 8) : exec (.rmem (.reg r) b) s = .next ((s.setReg r v).advance 2) := by
  have hw : writeDest (.reg r) v 2 s = .ok ((s.setReg r v).advance 2) := writeDest_eq_ok.2 ⟨r, rfl, rfl⟩
  rw [exec_rmem_of_inside hb hlt, hv, ok_bind, hw, State.finish_ok]

end

/-- Settles O35: the source, the extent, the cell's value and the destination are checked in this order. -/
theorem rmemReadsOneCell : Obligations.RmemReadsOneCell := by
  intro a b s
  refine ⟨rfl, ?_, fun addr hb hext => exec_rmem_of_outside hb hext a, fun addr hb hlt hcell => ?_,
    fun addr hb hlt hcell ha => ?_, ?_⟩
  · rintro w rfl
    exact exec_rmem_invalid a w s
  · rw [exec_rmem_of_inside hb hlt, cellValue_of_gt hcell, error_bind, State.finish_error, State.takeFault]
  · obtain ⟨v, hv, -⟩ := exists_cellValue_eq_ok hcell
    have hw : writeDest a v 2 s = .error ⟨.invalidRegister, a.word⟩ := writeDest_eq_error.2 ⟨ha, rfl⟩
    rw [exec_rmem_of_inside hb hlt, hv, ok_bind, hw, State.finish_error, State.takeFault]
  · rintro addr r hb hlt hcell rfl
    obtain ⟨v, hv, hval⟩ := exists_cellValue_eq_ok hcell
    exact ⟨v, hval, exec_rmem_reg hb hlt hv r⟩

/-! #### The ends of `wmem` -/

theorem exec_wmem_invalid_left (b : Operand) (w : MemWord) (s : State) :
    exec (.wmem (.invalid w) b) s = .next (s.faultedWith .invalidOperand w) :=
  State.finish_error s ⟨.invalidOperand, w⟩

section
variable {a : Operand} {s : State} {addr : Word} (ha : resolve a s = .ok addr)
include ha

/-- An invalid value faults before the extent is checked (47_memory_ops.md R231). -/
theorem exec_wmem_invalid_right (w : MemWord) :
    exec (.wmem a (.invalid w)) s = .next (s.faultedWith .invalidOperand w) := by
  simp only [exec, execWmem, ha, resolve_invalid, ok_bind, error_bind, State.finish_error, State.takeFault]

theorem exec_wmem_of_outside {b : Operand} {v : Word} (hb : resolve b s = .ok v)
    (hext : s.params.memWords.val ≤ addr.toNat) :
    exec (.wmem a b) s = .next (s.faultedWith .invalidMemoryAccess (zext16 addr)) := by
  have hw := memWrite_of_outside (addr := zext16 addr) ((zext16_toNat addr).symm ▸ hext)
  simp only [exec, execWmem, ha, hb, hw, ok_bind, error_bind, State.finish_error, State.takeFault]

end

/-- Settles O36: both sources are resolved before the extent check, and the store is one cell's. -/
theorem wmemWritesOneCell : Obligations.WmemWritesOneCell := by
  intro a b s
  refine ⟨rfl, ?_, ?_, fun addr v ha hb hext => exec_wmem_of_outside ha hb hext, fun addr v ha hb hlt =>
    ⟨s.mem.writeWord addr.toNat (zext16 v), exec_wmem ha hb hlt, ?_, fun k hlo hhi => ?_⟩⟩
  · rintro w rfl
    exact exec_wmem_invalid_left b w s
  · rintro addr w ha rfl
    exact exec_wmem_invalid_right ha w
  · exact Memory.readWord_writeWord_same _ _ _
  · exact Memory.read_writeWord_other _ _ _ _ hlo hhi

/-! #### A store read back -/

/-- The cell a value was stored to gives that value back (20_memory.md R75). -/
theorem cellValue_zext16 (v : Word) : cellValue (zext16 v) = .ok v :=
  cellValue_eq_ok.2 ⟨(zext16_toNat v).symm ▸ Nat.le_of_lt_succ v.isLt, (zext16_toNat v).symm⟩

/-- Settles O37: `wmem` writes no register, so its address operand resolves as before, to the cell that now holds the
value. -/
theorem wmemThenRmemRoundTrip : Obligations.WmemThenRmemRoundTrip := by
  intro a b r addr v s t hwf ha hb hlt hstore
  rw [exec_wmem ha hb hlt] at hstore
  cases hstore
  set t := (s.storeCell addr.toNat (zext16 v)).advance 2
  have hat : resolve a t = .ok addr := (resolve_congr rfl a).trans ha
  have hcell : t.cell addr.toNat = zext16 v := Memory.readWord_writeWord_same _ _ _ hwf
  have hv : cellValue (t.cell addr.toNat) = .ok v := hcell.symm ▸ cellValue_zext16 v
  exact ⟨(t.setReg r v).advance 2, exec_rmem_reg hat hlt hv r, t.reg_setReg_same r v⟩

end Sys2Proof.Machine

/-! ### Character I/O obligations (48_io.md) -/

namespace Sys2Proof.Machine

/-! #### The ends of `out` -/

theorem exec_out_invalid (w : MemWord) (s : State) :
    exec (.out (.invalid w)) s = .next (s.faultedWith .invalidOperand w) :=
  State.finish_error s ⟨.invalidOperand, w⟩

section
variable {a : Operand} {s : State} {v : Word} (ha : resolve a s = .ok v)
include ha

/-- A ready sink takes the code and the pc advances (48_io.md R242). -/
theorem exec_out_of_ready (hready : s.outReady = true) :
    exec (.out a) s = .next { s with output := s.output ++ [v], pc := s.pc + 2 } := by
  simp only [exec, execOut, ha, ok_bind, if_pos hready, State.finish_ok]
  rfl

/-- Without a ready sink the instruction waits (48_io.md R242). -/
theorem exec_out_of_not_ready (hready : s.outReady = false) : exec (.out a) s = .next s := by
  simp [exec, execOut, ha, hready, State.hold]

end

/-- Settles O39: the source is resolved first, then the sink takes the code or the CORE waits. -/
theorem outAppendsOneCode : Obligations.OutAppendsOneCode := by
  intro a s
  refine ⟨encode_of_operands_singleton rfl, ?_, fun v ha => exec_out_of_ready ha, fun v ha => exec_out_of_not_ready ha⟩
  rintro w rfl
  exact exec_out_invalid w s

/-! #### The ends of `in` -/

/-- The destination is checked before the wait, so its fault needs no character (48_io.md R247). -/
theorem exec_inp_of_notRegister {a : Operand} (ha : notRegister a) (s : State) :
    exec (.inp a) s = .next (s.faultedWith .invalidRegister a.word) := by
  have hd : dest a = .error ⟨.invalidRegister, a.word⟩ := dest_eq_error.2 ⟨ha, rfl⟩
  simp only [exec, execInp, hd, error_bind, State.finish_error, State.takeFault]

/-- Without a character the instruction waits (48_io.md R247). -/
theorem exec_inp_of_input_nil {s : State} (hin : s.input = []) (r : Fin 8) : exec (.inp (.reg r)) s = .next s := by
  have hread : s.inRead = none := s.inRead_eq_none.2 hin
  simp [exec, execInp, hread, State.hold]

/-- The first character goes to the register and is counted, and the pc advances (48_io.md R245, R247). -/
theorem exec_inp_of_input_cons {s : State} {ch : Word} {rest : List Word} (hin : s.input = ch :: rest) (r : Fin 8) :
    exec (.inp (.reg r)) s =
      .next { s with regs := s.regs.set r.val ch, input := rest, consumed := s.consumed + 1, pc := s.pc + 2 } := by
  have hread : s.inRead = some (ch, { s with input := rest, consumed := s.consumed + 1 }) := by
    simp [State.inRead, hin]
  simp only [exec, execInp, dest_reg, ok_bind, hread, State.finish_ok]
  rfl

/-- Settles O40: the destination is checked first, then a character is taken or the CORE waits. -/
theorem inTakesOneCharacter : Obligations.InTakesOneCharacter := by
  intro a s
  refine ⟨encode_of_operands_singleton rfl, fun ha => exec_inp_of_notRegister ha s, ?_, ?_⟩
  · rintro r rfl hin
    exact exec_inp_of_input_nil hin r
  · rintro r ch rest rfl hin
    exact exec_inp_of_input_cons hin r

/-! #### The port signals and the instruction at the pc -/

/-- `out_valid` and `out_data` are those of an `out` at the pc whose source resolves (48_io.md R241). -/
theorem offeredCode_eq_some {s : State} {v : Word} :
    offeredCode s = some v ↔ ∃ a, currentInstr s = some (.out a) ∧ resolve a s = .ok v := by
  unfold offeredCode
  split
  · rename_i a hcur
    cases hv : resolve a s <;> simp [hcur, hv]
  · rename_i hcur
    exact iff_of_false nofun fun ⟨a, ha, _⟩ => hcur a ha

/-- `in_req` is that of an `in` at the pc with a register for destination (48_io.md R246). -/
theorem inReq_eq_true {s : State} : inReq s = true ↔ ∃ r, currentInstr s = some (.inp (.reg r)) := by
  unfold inReq
  split
  · rename_i a hcur
    cases a <;> simp [dest, hcur]
  · rename_i hcur
    exact iff_of_false nofun fun ⟨r, hr⟩ => hcur _ hr

theorem inValid_eq_false {s : State} : inValid s = false ↔ s.input = [] := by
  simp [inValid]

theorem step_of_currentInstr {s : State} {i : Instr} (h : currentInstr s = some i) : step s = exec i s := by
  obtain ⟨hf, hi⟩ := currentInstr_eq_some.1 h
  exact step_of_fetchInstr_ok hf hi

/-- A step executes the instruction at the pc, or there is none and the ports stay as they are. -/
theorem samePorts_or_exec_of_step {s t : State} (h : step s = .next t) :
    samePorts s t ∨ ∃ i, currentInstr s = some i ∧ exec i s = .next t := by
  cases step_cases h with
  | run i t hf hi hx => exact .inr ⟨i, currentInstr_eq_some.2 ⟨hf, hi⟩, hx⟩
  | _ => exact .inl ⟨rfl, rfl, rfl, rfl, rfl⟩

section
variable {s t : State} (h : step s = .next t)
include h

/-- A completed `out` has offered its code, so a step without an offer leaves the trace alone. -/
theorem output_eq_of_offeredCode_eq_none (hnone : offeredCode s = none) : t.output = s.output := by
  obtain ⟨hout, -⟩ | ⟨i, hcur, hx⟩ := samePorts_or_exec_of_step h
  · exact hout
  · obtain hc | ⟨r, rfl⟩ := exec_cases hx
    · refine hc.effect.output_eq ?_
      rintro a rfl
      obtain ⟨v, hv, -⟩ := hc
      cases hnone.symm.trans (offeredCode_eq_some.2 ⟨a, hcur, hv⟩)
    · rfl

/-- A completed `in` has requested its character, so a step without a request leaves the input alone. -/
theorem input_eq_of_inReq_eq_false (hreq : inReq s = false) : t.input = s.input ∧ t.consumed = s.consumed := by
  obtain ⟨-, hin, hcons, -⟩ | ⟨i, hcur, hx⟩ := samePorts_or_exec_of_step h
  · exact ⟨hin, hcons⟩
  · obtain hc | ⟨r, rfl⟩ := exec_cases hx
    · refine hc.effect.input_eq ?_
      rintro a rfl
      obtain ⟨r, rfl, -⟩ := hc
      cases hreq.symm.trans (inReq_eq_true.2 ⟨r, hcur⟩)
    · exact ⟨rfl, rfl⟩

end

/-! #### Transfers -/

/-- Settles O41: an offered code is that of an `out` at the pc, which the sink takes or not, and without an offer the
trace stays. -/
theorem outputGrowsByTransfersOnly : Obligations.OutputGrowsByTransfersOnly := by
  intro s t h
  cases hoff : offeredCode s with
  | none => simpa [outValid, hoff] using output_eq_of_offeredCode_eq_none h hoff
  | some v =>
    obtain ⟨a, hcur, hv⟩ := offeredCode_eq_some.1 hoff
    rw [step_of_currentInstr hcur] at h
    cases hready : s.outReady with
    | true =>
      cases (exec_out_of_ready hv hready).symm.trans h
      simp [outValid, outData, hoff]
    | false =>
      cases (exec_out_of_not_ready hv hready).symm.trans h
      simp

/-- Settles O42: a request is that of an `in` at the pc, which takes the first character or waits for one, and without a
request the input stays. -/
theorem inputIsTakenByTransfersOnly : Obligations.InputIsTakenByTransfersOnly := by
  intro s t h
  cases hreq : inReq s with
  | false =>
    obtain ⟨hin, hcons⟩ := input_eq_of_inReq_eq_false h hreq
    simp [hin, hcons]
  | true =>
    obtain ⟨r, hcur⟩ := inReq_eq_true.1 hreq
    rw [step_of_currentInstr hcur] at h
    cases hin : s.input with
    | nil =>
      cases (exec_inp_of_input_nil hin r).symm.trans h
      simp [hin]
    | cons ch rest =>
      cases (exec_inp_of_input_cons hin r).symm.trans h
      have hvalid : inValid s = true := by simp [inValid, hin]
      simp [hvalid, Nat.add_assoc, Nat.add_comm 1]

end Sys2Proof.Machine

/-! ### Wait, reset and host event obligations (60_exceptions.md, 70_reset_and_hazards.md) -/

namespace Sys2Proof.Machine

/-- Settles O43: a waiting CORE is at an `in` or an `out`, which answers the state it began in. -/
theorem waitingKeepsTheState : Obligations.WaitingKeepsTheState := by
  intro s hwait
  simp only [waiting, Bool.or_eq_true, Bool.and_eq_true, Bool.not_eq_true'] at hwait
  obtain ⟨hreq, hnone⟩ | ⟨hoff, hready⟩ := hwait
  · obtain ⟨r, hcur⟩ := inReq_eq_true.1 hreq
    refine ⟨(currentInstr_eq_some.1 hcur).1.1, ?_⟩
    rw [step_of_currentInstr hcur, exec_inp_of_input_nil (inValid_eq_false.1 hnone)]
  · obtain ⟨v, hv⟩ := Option.isSome_iff_exists.1 hoff
    obtain ⟨a, hcur, ha⟩ := offeredCode_eq_some.1 hv
    refine ⟨(currentInstr_eq_some.1 hcur).1.1, ?_⟩
    rw [step_of_currentInstr hcur, exec_out_of_not_ready ha hready]

/-- Settles O56, event by event in `deliver_inv`. -/
theorem hostEventsKeepLegalStates : Obligations.HostEventsKeepLegalStates := fun _ _ _ hs h => deliver_inv hs h

/-- Settles O54: the reset state is a reset with the empty image. -/
theorem resetStateIsLegal : Obligations.ResetStateIsLegal := inv_reset

/-- Every register is 0 after a reset (70_reset_and_hazards.md R290). -/
theorem State.reg_applyReset (s : State) (r : Fin 8) : s.applyReset.reg r = 0 :=
  (State.reg_congr s.applyReset_regs r).trans (State.reg_reset r)

/-- Settles O58: each field of the state after a reset is given by its definition. -/
theorem resetGivesTheConstructionState : Obligations.ResetGivesTheConstructionState := fun s =>
  ⟨s.applyReset, rfl, s.reg_applyReset, rfl, rfl, rfl, rfl, rfl, rfl, rfl, rfl, rfl, rfl⟩

end Sys2Proof.Machine
